-- ==== Sys2Proof/Word.lean ====
section
/-! DEFINITION. The word types of the unit: 32-bit words (rule R61), the 16-bit position registers and the 8-bit colour registers
(rule R21). -/

namespace Sys2Proof

/-- A 32-bit word: a command word, a buffer word, a stream word, a host transaction's datum (rules R55, R61, R80). -/
abbrev Word := BitVec 32

/-- The contents of a position register, 16 bits (rules R21, R32). -/
abbrev Half := BitVec 16

/-- The contents of a colour register, the immediate of SETCODEC, or a byte of a serialised stream (rules R21, R50, R84). -/
abbrev Byte := BitVec 8

end Sys2Proof
end

