-- ==== Sys2Proof/Syntax.lean ====
section
/-! DEFINITION. The command set (one constructor per row of the opcode table, rule R85), the host transactions (rule R56), the
registers by name (rule R21), the element widths (rule R170), the codec presets (rule R131) and the lines of program text
(rules R90, R91). -/

namespace Sys2Proof

/-- The ten commands of rule R85. Only SETCODEC carries an operand in its word (rules R80, R84). -/
inductive Instr where
  /-- NOP, rule R101. -/
  | nop
  /-- SETCODEC imm8, rule R102. -/
  | setcodec (imm8 : Byte)
  /-- ENC32, rule R171. -/
  | enc32
  /-- ENC64, rule R174. -/
  | enc64
  /-- DEC32, rule R177. -/
  | dec32
  /-- DEC64, rule R180. -/
  | dec64
  /-- PACK64, rule R115. -/
  | pack64
  /-- PACK32, rule R116. -/
  | pack32
  /-- UNPACK64, rule R117. -/
  | unpack64
  /-- UNPACK32, rule R118. -/
  | unpack32
  deriving DecidableEq, Repr

/-- The two buffer spaces of rule R61. -/
inductive Space where
  /-- The input buffer IBUF. -/
  | ibuf
  /-- The output buffer OBUF. -/
  | obuf
  deriving DecidableEq, Repr

/-- The fourteen registers of rule R21, by name. -/
inductive Reg where
  | cmd | status | codecSel | nElems | encCap | encLen
  | px | py | pz | cr | cg | cb | pkLo | pkHi
  deriving DecidableEq, Repr

/-- The five host transactions of rule R56. -/
inductive Txn where
  /-- `RegRead(k)`. -/
  | regRead (k : Nat)
  /-- `RegWrite(k, v)`; with `k = 0` it executes the command `v` (rule R25). -/
  | regWrite (k : Nat) (v : Word)
  /-- `BufRead(s, i)`. -/
  | bufRead (sp : Space) (i : Nat)
  /-- `BufWrite(s, i, v)`. -/
  | bufWrite (sp : Space) (i : Nat) (v : Word)
  /-- `Reset`. -/
  | reset
  deriving DecidableEq, Repr

/-- The element width `W` of a codec command (rule R170). -/
inductive Width where
  /-- `W = 32`. -/
  | w32
  /-- `W = 64`. -/
  | w64
  deriving DecidableEq, Repr

/-- The four codec presets of rule R131. -/
inductive Preset where
  /-- Preset 0, `DPFOR_VB`. -/
  | dpforVb
  /-- Preset 1, `DFOR_VB`. -/
  | dforVb
  /-- Preset 2, `DPFOR`. -/
  | dpfor
  /-- Preset 3, `DVB`. -/
  | dvb
  deriving DecidableEq, Repr

/-- A line of program text: the transaction lines of rule R90 and the pseudo-commands of rule R91. A numeric operand is an integer,
since the text may write a negative decimal (rule R90). -/
inductive Line where
  /-- `wr NAME, value`. -/
  | wr (r : Reg) (v : Int)
  /-- `rd NAME`. -/
  | rd (r : Reg)
  /-- `ibuf[i] = value` and `ibuf[i..j] = v_i, …, v_j`. -/
  | ibuf (i : Nat) (vs : List Int)
  /-- `obuf[i] = value`. -/
  | obuf (i : Nat) (v : Int)
  /-- `rdbuf obuf[i]`, `rdbuf ibuf[i]`. -/
  | rdbuf (sp : Space) (i : Nat)
  /-- `MNEMONIC` and `SETCODEC imm`. -/
  | command (i : Instr)
  /-- `.word value`. -/
  | word (v : Int)
  /-- `reset`. -/
  | reset
  /-- `ENCP32 n`, `ENCP64 n`. -/
  | encp (W : Width) (n : Nat)
  /-- `DECP32 n`, `DECP64 n`. -/
  | decp (W : Width) (n : Nat)
  /-- `SETPOS x, y, z`. -/
  | setpos (x y z : Int)
  /-- `SETCOL r, g, b`. -/
  | setcol (r g b : Int)
  /-- `SETPK lo, hi`. -/
  | setpk (lo hi : Int)
  deriving DecidableEq, Repr

end Sys2Proof
end

