-- ==== Sys2Proof/Config.lean ====
section
/-! DEFINITION. The implementation parameters of rule R5 and the free value that stands for every word the spec calls unspecified
(rules R39, R204; U1, U2). -/

namespace Sys2Proof

/-- The two adjustable sizes of rule R5, in 32-bit words. -/
structure Params where
  /-- `IBUF_WORDS`. -/
  ibufWords : Nat
  /-- `OBUF_WORDS`. -/
  obufWords : Nat
  deriving DecidableEq, Repr

/-- The default sizes of rule R5, `2^21` words each, the ones every test vector uses. -/
def Params.default : Params := { ibufWords := 2 ^ 21, obufWords := 2 ^ 21 }

/-- `MAX_N = 2^28 − 1`, fixed by the header's 28-bit count field and not adjustable (rules R5, R134). -/
def Config.maxN : Nat := 2 ^ 28 - 1

/-- DESIGN CHOICE (log entries 5, 6, 12). The word that the event numbered `epoch` (a reset, or a failing codec command) leaves at index `i`
of a buffer where the spec says 'unspecified': some 32-bit value, the same at every read until the word is written, about
which no rule says anything (rules R39, R204). It has no body, so nothing can be proved of it. -/
opaque Config.freeWord (epoch : Nat) (sp : Space) (i : Nat) : Word

end Sys2Proof
end

