-- ==== Sys2Proof/WellFormed.lean ====
section
/-! DEFINITION. What a well-formed parameter set, command, transaction and program line are. A transaction that is not well formed
is the one that ends in `BusErr` (rule R59). -/

namespace Sys2Proof

/-- The constraint of rule R5 on one buffer size: `1 ≤ size ≤ 2^32 − 1`. -/
def Params.sizeOk (n : Nat) : Bool := decide (1 ≤ n ∧ n ≤ 2 ^ 32 - 1)

/-- Both sizes meet the constraint of rule R5. -/
def Params.wf (p : Params) : Bool := Params.sizeOk p.ibufWords && Params.sizeOk p.obufWords

/-- The size of a buffer in words (rule R61). -/
def Params.size (p : Params) : Space → Nat
  | .ibuf => p.ibufWords
  | .obuf => p.obufWords

/-- A command has no operand that could be ill formed: its only field is the immediate of SETCODEC, and every value 0..255 of it
decodes (rules R84, R88). -/
def Instr.wf : Instr → Bool
  | .nop | .setcodec _ | .enc32 | .enc64 | .dec32 | .dec64 | .pack64 | .pack32 | .unpack64 | .unpack32 => true

/-- A transaction names a register number below 16 or a buffer index below the buffer's size; the others fail with `BusErr`
(rule R59). -/
def Txn.wf (p : Params) : Txn → Bool
  | .regRead k => decide (k < 16)
  | .regWrite k _ => decide (k < 16)
  | .bufRead sp i => decide (i < p.size sp)
  | .bufWrite sp i _ => decide (i < p.size sp)
  | .reset => true

/-- A number of program text is a 32-bit value or the negative of one. DESIGN CHOICE (log entry 16): rule R90 speaks of a negative decimal
in a register write; the model admits one wherever a line has a number. -/
def Line.numberOk (v : Int) : Bool := decide (-(2 ^ 32) < v ∧ v < 2 ^ 32)

/-- A well-formed line of program text: `wr` names a register other than CMD (rule R90). DESIGN CHOICE (log entry 16): a buffer line has at
least one word, numbers are as `Line.numberOk` says, and the count `n` of a padded pseudo-command is at most `MAX_N`, where rules R91,
R183 and R184 give `n` no upper bound; the expansion of a line is total and not gated by this predicate. -/
def Line.wf : Line → Bool
  | .wr r v => decide (r ≠ .cmd) && Line.numberOk v
  | .rd _ => true
  | .ibuf _ vs => !vs.isEmpty && vs.all Line.numberOk
  | .obuf _ v => Line.numberOk v
  | .rdbuf _ _ => true
  | .command i => i.wf
  | .word v => Line.numberOk v
  | .reset => true
  | .encp _ n => decide (n ≤ Config.maxN)
  | .decp _ n => decide (n ≤ Config.maxN)
  | .setpos x y z => Line.numberOk x && Line.numberOk y && Line.numberOk z
  | .setcol r g b => Line.numberOk r && Line.numberOk g && Line.numberOk b
  | .setpk lo hi => Line.numberOk lo && Line.numberOk hi

end Sys2Proof
end

