-- ==== Sys2Proof/Decode.lean ====
section
/-! DEFINITION. The decoder of rule R86 (steps 1 to 3), total on every 32-bit word and rejecting by name, the encoder written from the
formats of rules R81 and R82, and the match and mask table of rule R85. -/

namespace Sys2Proof

/-- Why a word is illegal: which of the three tests of rule R86 it fails. -/
inductive DecodeError where
  /-- Step 1: bits 23:8 are not zero. -/
  | zeroField
  /-- Step 2: bits 31:24 are none of the ten opcodes. -/
  | unknownOpcode
  /-- Step 3: bits 7:0 are not zero in a Format N command. -/
  | lowByte
  deriving DecidableEq, Repr

/-- `op = cw[31:24]` (rule R83). -/
def opField (cw : Word) : Byte := cw.extractLsb' 24 8

/-- `zero = cw[23:8]` (rule R83). -/
def zeroField (cw : Word) : BitVec 16 := cw.extractLsb' 8 16

/-- `imm8 = cw[7:0]` (rule R83). -/
def imm8Field (cw : Word) : Byte := cw.extractLsb' 0 8

/-- The command of an opcode, with the immediate that only SETCODEC keeps (rule R85). -/
def instrOfOpcode (op imm8 : Byte) : Option Instr :=
  match op.toNat with
  | 0x00 => some .nop
  | 0x01 => some (.setcodec imm8)
  | 0x10 => some .enc32
  | 0x11 => some .enc64
  | 0x12 => some .dec32
  | 0x13 => some .dec64
  | 0x20 => some .pack64
  | 0x21 => some .pack32
  | 0x22 => some .unpack64
  | 0x23 => some .unpack32
  | _ => none

/-- Decoding a command word, in the order of rule R86 steps 1 to 3. -/
def decode (cw : Word) : Except DecodeError Instr :=
  if zeroField cw ≠ 0 then .error .zeroField
  else
    match instrOfOpcode (opField cw) (imm8Field cw) with
    | none => .error .unknownOpcode
    | some i => if opField cw ≠ 0x01 ∧ imm8Field cw ≠ 0 then .error .lowByte else .ok i

/-- The decoder on an instruction numbered as the opcode table numbers it: one 32-bit word, the bits from `nbits` up being zero. -/
def decodeTableWord (nbits w : Nat) : Option Instr :=
  match decode (BitVec.ofNat 32 (w % 2 ^ nbits)) with
  | .ok i => some i
  | .error _ => none

/-- The opcode of a command (rule R85). -/
def opcode : Instr → Byte
  | .nop => 0x00
  | .setcodec _ => 0x01
  | .enc32 => 0x10
  | .enc64 => 0x11
  | .dec32 => 0x12
  | .dec64 => 0x13
  | .pack64 => 0x20
  | .pack32 => 0x21
  | .unpack64 => 0x22
  | .unpack32 => 0x23

/-- Bits 7:0 of a command's word: the immediate in Format I, zero in Format N (rules R81, R82). -/
def immediate : Instr → Byte
  | .setcodec imm8 => imm8
  | .nop | .enc32 | .enc64 | .dec32 | .dec64 | .pack64 | .pack32 | .unpack64 | .unpack32 => 0

/-- The command word: opcode, sixteen zero bits, immediate (rules R81, R82). -/
def encode (i : Instr) : Word := opcode i ++ (0#16 ++ immediate i)

/-- One row of the table of rule R85: a word is the command iff `cw & mask = match`. -/
structure OpcodeRow where
  /-- The value the masked word must have. -/
  pattern : Word
  /-- The bits that are compared. -/
  mask : Word
  deriving DecidableEq, Repr

/-- The ten rows of rule R85, in its order. -/
def opcodeTable : List OpcodeRow :=
  [ ⟨0x00000000, 0xFFFFFFFF⟩, ⟨0x01000000, 0xFFFFFF00⟩,
    ⟨0x10000000, 0xFFFFFFFF⟩, ⟨0x11000000, 0xFFFFFFFF⟩, ⟨0x12000000, 0xFFFFFFFF⟩, ⟨0x13000000, 0xFFFFFFFF⟩,
    ⟨0x20000000, 0xFFFFFFFF⟩, ⟨0x21000000, 0xFFFFFFFF⟩, ⟨0x22000000, 0xFFFFFFFF⟩, ⟨0x23000000, 0xFFFFFFFF⟩ ]

/-- The word matches the row. -/
def OpcodeRow.holds (r : OpcodeRow) (cw : Word) : Bool := cw &&& r.mask == r.pattern

end Sys2Proof
end

