-- ==== Sys2Proof/Machine/State.lean ====
section
/-! DEFINITION. The state of the unit as plain data (rules R20, R21, R36), the error codes (rule R201), what a transaction returns
(rule R56), the reasons a step can stop, and the state after reset (rule R39). -/

namespace Sys2Proof.Machine

/-- The error codes of rule R201, with success. -/
inductive ErrCode where
  /-- `OK`, code 0x00. -/
  | ok
  /-- `E_ILLEGAL_CMD`, code 0x01: the word matches no command (rule R87). -/
  | illegalCmd
  /-- `E_SELECTOR`, code 0x02: SETCODEC with an immediate above 3 (rule R102). -/
  | selector
  /-- `E_RANGE`, code 0x03: the element count or the input does not fit (rules R172, R178). -/
  | range
  /-- `E_BLOCKLEN`, code 0x04: the count is no multiple of the block requirement (rules R172, R178). -/
  | blocklen
  /-- `E_CAPACITY`, code 0x05: the output does not fit (rules R172, R178). -/
  | capacity
  /-- `E_TRUNCATED`, code 0x06: the decoder needs a word past the stream's end (rule R153). -/
  | truncated
  /-- `E_HEADER`, code 0x07: a wrong header (rule R155). -/
  | header
  /-- `E_DESCRIPTOR`, code 0x08: an invalid block descriptor or position list (rule R156). -/
  | descriptor
  /-- `E_VARBYTE`, code 0x09: a variable-byte value too long or too large (rule R158). -/
  | varbyte
  /-- `E_COUNT`, code 0x0A: the header's count is not the expected one (rule R155). -/
  | count
  /-- `E_LENGTH`, code 0x0B: the stream does not end at `ENC_LEN` (rules R154, R159). -/
  | length
  deriving DecidableEq, Repr

/-- What a transaction returns (rule R56). -/
inductive Response where
  /-- A write or a reset is done. -/
  | done
  /-- The 32-bit value of a read. -/
  | value (v : Word)
  /-- The transaction failed (rule R59). -/
  | busErr
  deriving DecidableEq, Repr

/-- One buffer of rule R36. DESIGN CHOICE (log entries 5, 6, 7): a word the host or a command has written stands in `cells`, by rising
index; a word that is unspecified is listed nowhere and reads as the free value of the event that made it so. -/
structure Memory where
  /-- The written words, as (index, word) pairs, indices strictly rising. -/
  cells : List (Nat × Word)
  /-- The prefixes that failing codec commands left unspecified (rule R204), as (length, event) pairs, newest first, lengths
  strictly rising and events strictly falling. -/
  fills : List (Nat × Nat)
  /-- The reset that left every word unspecified (rule R39). -/
  base : Nat
  deriving DecidableEq, Repr

/-- A buffer in which the event `epoch` has left every word unspecified. -/
def Memory.unspecified (epoch : Nat) : Memory := { cells := [], fills := [], base := epoch }

/-- The state of the unit, rules R20, R21 and R36, and four fields of the model's own (log entries 1, 2, 4, 6). `CMD` and the register
numbers 6 and 7 have no storage (rules R21, R22). -/
structure State where
  /-- `STATUS` (rules R26, R27). -/
  status : Word
  /-- `CODEC_SEL`, two bits (rule R28). -/
  codecSel : BitVec 2
  /-- `N_ELEMS` (rule R29). -/
  nElems : Word
  /-- `ENC_CAP` (rule R29). -/
  encCap : Word
  /-- `ENC_LEN` (rule R29). -/
  encLen : Word
  /-- `PX` (rule R32). -/
  px : Half
  /-- `PY` (rule R32). -/
  py : Half
  /-- `PZ` (rule R32). -/
  pz : Half
  /-- `CR` (rule R33). -/
  cr : Byte
  /-- `CG` (rule R33). -/
  cg : Byte
  /-- `CB` (rule R33). -/
  cb : Byte
  /-- `PK_LO` (rule R34). -/
  pkLo : Word
  /-- `PK_HI` (rule R34). -/
  pkHi : Word
  /-- IBUF (rule R36). -/
  ibuf : Memory
  /-- OBUF (rule R36). -/
  obuf : Memory
  /-- The model's own: the sizes of rule R5, which no step changes (log entry 4). -/
  params : Params
  /-- The model's own: the number of the next event that leaves words unspecified (log entry 6). -/
  freeNext : Nat
  /-- The model's own: the host transactions not yet performed, in their total order (rules R30, R63; log entry 1). -/
  program : List Txn
  /-- The model's own: what the most recent transaction returned; nothing before the first one (rule R56; log entry 2). -/
  response : Option Response
  deriving DecidableEq, Repr

/-- The machine right after reset (rule R39): every register 0, every buffer word unspecified; the default sizes of rule R5, no
transaction pending. -/
def State.reset : State where
  status := 0
  codecSel := 0
  nElems := 0
  encCap := 0
  encLen := 0
  px := 0
  py := 0
  pz := 0
  cr := 0
  cg := 0
  cb := 0
  pkLo := 0
  pkHi := 0
  ibuf := Memory.unspecified 0
  obuf := Memory.unspecified 0
  params := Params.default
  freeNext := 1
  program := []
  response := none

/-- The reasons a step can stop with a fault: there are none. The unit has no trap, every failure of a command is a value of `STATUS`
(rules R200, R209) and a failed transaction is a response (rule R59), so this type is empty: safe, since no claim can rest on a
stop (log entry 10). -/
inductive Fault where
  deriving DecidableEq, Repr

/-- The reasons a step can be refused. -/
inductive Refusal where
  /-- An instruction without a meaning, raised by `exec` alone: safe, nothing can be proved of its effect. No arm of `exec` raises it,
  since every command of the table has its meaning (log entry 10). -/
  | notModelled (mnemonic : String)
  deriving DecidableEq, Repr

end Sys2Proof.Machine
end

