-- ==== Sys2Proof/Machine/Bits.lean ====
section
/-! DEFINITION. The notation of rules R6 to R11 on non-negative integers (signed reading, bit length, slices), and the bit-string packing
of rule R133. -/

namespace Sys2Proof.Machine

/-- `sint_N(v)`: the two's-complement reading of an `N`-bit value (rule R9). -/
def sint (N v : Nat) : Int := if v.testBit (N - 1) then (v : Int) - 2 ^ N else v

/-- `sext_N(v)` from width `M` (rule R9). -/
def sext (M N v : Nat) : Nat := (sint M v % 2 ^ N).toNat

/-- `bitlen(v)`: the least `k` with `v < 2^k` (rule R10). -/
def bitlen (v : Nat) : Nat := if v = 0 then 0 else Nat.log2 v + 1

/-- `ceil(a / b)` for `b > 0` (rule R7). -/
def ceilDiv (a b : Nat) : Nat := (a + (b - 1)) / b

/-- `v[hi:lo]` (rule R6). -/
def slice (v hi lo : Nat) : Nat := v / 2 ^ lo % 2 ^ (hi - lo + 1)

/-- `(a − b) mod 2^w`, the subtraction exact and the remainder non-negative (rule R7). -/
def subMod (w a b : Nat) : Nat := (((a : Int) - b) % 2 ^ w).toNat

/-- `(a + b) mod 2^w` (rule R7). -/
def addMod (w a b : Nat) : Nat := (a + b) % 2 ^ w

/-- The number whose `w`-bit groups, lowest first, are the values: bit `i·w + j` is bit `j` of `v_i` (rule R133). -/
def joinBits (w : Nat) : List Nat → Nat
  | [] => 0
  | v :: vs => v % 2 ^ w + 2 ^ w * joinBits w vs

/-- The first `c` groups of `w` bits of a number, lowest first (rule R133). -/
def splitBits (w : Nat) : Nat → Nat → List Nat
  | 0, _ => []
  | c + 1, a => a % 2 ^ w :: splitBits w c (a / 2 ^ w)

/-- The low `k` words of a number, lowest first (rules R11, R133). -/
def wordsOf : Nat → Nat → List Word
  | 0, _ => []
  | k + 1, a => BitVec.ofNat 32 a :: wordsOf k (a / 2 ^ 32)

/-- The number that words make, lowest first (rules R11, R133). -/
def ofWords : List Word → Nat
  | [] => 0
  | x :: xs => x.toNat + 2 ^ 32 * ofWords xs

/-- `packbits(v_0 … v_{c−1}, w)`: the bits of the values, least significant first, in `ceil(c·w / 32)` words; the unused bits of the
last word are 0 (rule R133). -/
def packbits (vs : List Nat) (w : Nat) : List Word := wordsOf (ceilDiv (vs.length * w) 32) (joinBits w vs)

/-- `unpackbits`: `c` values of `w` bits from words; the bits beyond `c·w` are ignored (rule R133). -/
def unpackbits (ws : List Word) (c w : Nat) : List Nat := splitBits w c (ofWords ws)

end Sys2Proof.Machine
end

