-- ==== Sys2Proof/Machine/Flags.lean ====
section
/-! DEFINITION. The unit has no condition flag (rule R31): its only outcome indication is `STATUS`, whose fields are computed here (rules
R27, R201). -/

namespace Sys2Proof.Machine

/-- `CODE`, the number of an error code (rule R201). -/
def ErrCode.code : ErrCode → Nat
  | .ok => 0x00
  | .illegalCmd => 0x01
  | .selector => 0x02
  | .range => 0x03
  | .blocklen => 0x04
  | .capacity => 0x05
  | .truncated => 0x06
  | .header => 0x07
  | .descriptor => 0x08
  | .varbyte => 0x09
  | .count => 0x0A
  | .length => 0x0B

/-- `CLASS`: 0 none, 1 `CodecError`, 2 `ConsistencyError`, 3 `CommandError` (rules R27, R201). -/
def ErrCode.cls : ErrCode → Nat
  | .ok => 0
  | .illegalCmd => 3
  | .selector | .range | .blocklen | .capacity | .truncated | .header | .descriptor | .varbyte => 1
  | .count | .length => 2

/-- The value `STATUS` takes: `2^8·CLASS + CODE` (rules R27, R200). -/
def statusWord (c : ErrCode) : Word := BitVec.ofNat 32 (2 ^ 8 * c.cls + c.code)

/-- `STATUS[7:0]` (rule R27). -/
def statusCode (v : Word) : Byte := v.extractLsb' 0 8

/-- `STATUS[9:8]` (rule R27). -/
def statusClass (v : Word) : BitVec 2 := v.extractLsb' 8 2

/-- The values `STATUS` can take (rules R27, R201). -/
def statusValues : List Word :=
  [0x000, 0x301, 0x102, 0x103, 0x104, 0x105, 0x106, 0x107, 0x108, 0x109, 0x20A, 0x20B]

end Sys2Proof.Machine
end

