-- ==== Sys2Proof/Machine/Ops.lean ====
section
/-! DEFINITION. The named operations on the state: one update per piece of state, the reads and writes of the buffers (rules R11, R57,
R58), how a command ends in success or in an error (rules R86, R200, R204), and reset (rule R230). -/

namespace Sys2Proof.Machine

/-! ### Updates -/

/-- `STATUS <- v`. -/
def State.withStatus (s : State) (v : Word) : State := { s with status := v }
/-- `CODEC_SEL <- v`. -/
def State.withCodecSel (s : State) (v : BitVec 2) : State := { s with codecSel := v }
/-- `N_ELEMS <- v`. -/
def State.withNElems (s : State) (v : Word) : State := { s with nElems := v }
/-- `ENC_CAP <- v`. -/
def State.withEncCap (s : State) (v : Word) : State := { s with encCap := v }
/-- `ENC_LEN <- v`. -/
def State.withEncLen (s : State) (v : Word) : State := { s with encLen := v }
/-- `PX <- x ; PY <- y ; PZ <- z`. -/
def State.withPosition (s : State) (x y z : Half) : State := { s with px := x, py := y, pz := z }
/-- `CR <- r ; CG <- g ; CB <- b`. -/
def State.withColour (s : State) (r g b : Byte) : State := { s with cr := r, cg := g, cb := b }
/-- `PK_LO <- lo ; PK_HI <- hi`. -/
def State.withPacked (s : State) (lo hi : Word) : State := { s with pkLo := lo, pkHi := hi }
/-- IBUF takes the contents `m`. -/
def State.withIbuf (s : State) (m : Memory) : State := { s with ibuf := m }
/-- OBUF takes the contents `m`. -/
def State.withObuf (s : State) (m : Memory) : State := { s with obuf := m }
/-- The number of the next event that leaves words unspecified (log entry 6). -/
def State.withFreeNext (s : State) (e : Nat) : State := { s with freeNext := e }
/-- The transactions not yet performed (log entry 1). -/
def State.withProgram (s : State) (ts : List Txn) : State := { s with program := ts }
/-- What the transaction returns (log entry 2). -/
def State.withResponse (s : State) (r : Response) : State := { s with response := some r }

/-! ### Buffers -/

/-- The word written at an index, if one is. -/
def cellAt (i : Nat) : List (Nat × Word) → Option Word
  | [] => none
  | (j, v) :: rest => if i = j then some v else cellAt i rest

/-- Writing one word, the indices staying in rising order. -/
def setCell (i : Nat) (v : Word) : List (Nat × Word) → List (Nat × Word)
  | [] => [(i, v)]
  | (j, w) :: rest =>
    if i < j then (i, v) :: (j, w) :: rest
    else if i = j then (i, v) :: rest
    else (j, w) :: setCell i v rest

/-- Consecutive words from index `k` on. -/
def cellsFrom : Nat → List Word → List (Nat × Word)
  | _, [] => []
  | k, v :: vs => (k, v) :: cellsFrom (k + 1) vs

/-- The event that left an unlisted word unspecified: the newest failing command whose region holds the index, else the reset. -/
def epochAt (i base : Nat) : List (Nat × Nat) → Nat
  | [] => base
  | (len, e) :: rest => if i < len then e else epochAt i base rest

/-- The word at an index (rules R11, R57): the written word, else the unspecified value of rule R39 or R204. -/
def Memory.read (m : Memory) (sp : Space) (i : Nat) : Word :=
  match cellAt i m.cells with
  | some v => v
  | none => Config.freeWord (epochAt i m.base m.fills) sp i

/-- `s[i] <- v` (rule R58). -/
def Memory.write (m : Memory) (i : Nat) (v : Word) : Memory := { m with cells := setCell i v m.cells }

/-- `s[t] <- ws[t]` for every index `t` of `ws`, the words from there on unchanged (rules R172 and R178, step 5). -/
def Memory.writePrefix (m : Memory) (ws : List Word) : Memory :=
  { m with cells := cellsFrom 0 ws ++ m.cells.filter (fun c => ws.length ≤ c.1) }

/-- The words below `len` become unspecified, by the event `e`; the others are unchanged (rule R204). -/
def Memory.scramble (m : Memory) (len e : Nat) : Memory :=
  { m with
    cells := m.cells.filter (fun c => len ≤ c.1)
    fills := (len, e) :: m.fills.filter (fun f => len < f.1) }

/-- The canonical form of a buffer of `size` words when `next` is the number of the next event: indices strictly rising and below the
size; fill lengths positive, strictly rising and at most the size; events strictly falling, above the reset's and below `next`. -/
def Memory.wf (size next : Nat) (m : Memory) : Bool :=
  decide (m.cells.Pairwise fun a b => a.1 < b.1) && m.cells.all (fun c => decide (c.1 < size)) &&
  decide (m.fills.Pairwise fun a b => a.1 < b.1 ∧ b.2 < a.2) &&
  m.fills.all (fun f => decide (0 < f.1 ∧ f.1 ≤ size ∧ m.base < f.2 ∧ f.2 < next)) && decide (m.base < next)

/-- The contents of a buffer of the state. -/
def State.mem (s : State) : Space → Memory
  | .ibuf => s.ibuf
  | .obuf => s.obuf

/-- A buffer of the state takes the contents `m`. -/
def State.withMem (s : State) (sp : Space) (m : Memory) : State :=
  match sp with
  | .ibuf => s.withIbuf m
  | .obuf => s.withObuf m

/-- The word `s[i]` of a buffer (rule R11). -/
def State.word (s : State) (sp : Space) (i : Nat) : Word := (s.mem sp).read sp i

/-- `MemRead(space, i, n)`: `n` consecutive words from index `i`, low word first (rule R11). -/
def State.memRead (s : State) (sp : Space) : Nat → Nat → Nat
  | _, 0 => 0
  | i, n + 1 => (s.word sp i).toNat + 2 ^ 32 * s.memRead sp (i + 1) n

/-- `s[i] <- v` (rule R58). -/
def State.writeWord (s : State) (sp : Space) (i : Nat) (v : Word) : State := s.withMem sp ((s.mem sp).write i v)

/-- A command writes its output words to OBUF from index 0 on (rule R61). -/
def State.writeOutput (s : State) (ws : List Word) : State := s.withObuf (s.obuf.writePrefix ws)

/-- The words `OBUF[0 .. len − 1]` become unspecified (rule R204); nothing happens to an empty region. -/
def State.scrambleOutput (s : State) (len : Nat) : State :=
  if len = 0 then s else (s.withObuf (s.obuf.scramble len s.freeNext)).withFreeNext (s.freeNext + 1)

/-! ### How a command ends -/

/-- Step 5 of rule R86: nothing was raised, `STATUS <- 0`. -/
def State.succeed (s : State) : State := s.withStatus (statusWord .ok)

/-- `raise E(code)`: taking the unit's one kind of exception. It saves nothing, changes no mode and transfers control nowhere (rule R209);
it writes `STATUS` (rule R200). There is no return from it: the next command simply overwrites `STATUS` (rule R210). -/
def State.raise (s : State) (c : ErrCode) : State := s.withStatus (statusWord c)

/-- How many OBUF words a failing ENC command leaves unspecified: `min(ENC_CAP, OBUF_WORDS)` (rule R204). -/
def State.encRegion (s : State) : Nat := min s.encCap.toNat s.params.obufWords

/-- How many OBUF words a failing DEC command leaves unspecified: `min(K·N_ELEMS, OBUF_WORDS)` (rule R204). -/
def State.decRegion (s : State) (K : Nat) : Nat := min (K * s.nElems.toNat) s.params.obufWords

/-- What a failing ENC32 or ENC64 leaves behind: `ENC_LEN` 0 and its output region unspecified (rules R172, R204). -/
def State.failEnc (s : State) (c : ErrCode) : State := ((s.scrambleOutput s.encRegion).withEncLen 0).raise c

/-- What a failing DEC32 or DEC64 leaves behind: its output region unspecified (rules R178, R204). -/
def State.failDec (s : State) (K : Nat) (c : ErrCode) : State := (s.scrambleOutput (s.decRegion K)).raise c

/-! ### Reset -/

/-- The transaction `Reset` (rule R230): every register takes the value of rule R39 and every buffer word becomes unspecified. The
sizes, the pending transactions and the last response are the model's own and stay (log entry 15). -/
def State.resetUnit (s : State) : State :=
  { State.reset with
    ibuf := Memory.unspecified s.freeNext
    obuf := Memory.unspecified s.freeNext
    params := s.params
    freeNext := s.freeNext + 1
    program := s.program
    response := s.response }

end Sys2Proof.Machine
end

