-- ==== Sys2Proof/Machine/Operands.lean ====
section
/-! DEFINITION. The operand forms: the registers as the host reads and writes them by number (rules R21 to R24), the elements of an array
in a buffer (rules R51, R170), and the byte form of words outside the unit (rules R50, R53). -/

namespace Sys2Proof.Machine

/-! ### Registers by number -/

/-- The number of a register (rule R21). -/
def regNumber : Reg → Nat
  | .cmd => 0
  | .status => 1
  | .codecSel => 2
  | .nElems => 3
  | .encCap => 4
  | .encLen => 5
  | .px => 8
  | .py => 9
  | .pz => 10
  | .cr => 11
  | .cg => 12
  | .cb => 13
  | .pkLo => 14
  | .pkHi => 15

/-- The register of a number: none for the reserved numbers 6 and 7 and for numbers from 16 on (rules R21, R22). -/
def regAt : Nat → Option Reg
  | 0 => some .cmd
  | 1 => some .status
  | 2 => some .codecSel
  | 3 => some .nElems
  | 4 => some .encCap
  | 5 => some .encLen
  | 8 => some .px
  | 9 => some .py
  | 10 => some .pz
  | 11 => some .cr
  | 12 => some .cg
  | 13 => some .cb
  | 14 => some .pkLo
  | 15 => some .pkHi
  | _ => none

/-- The value a host read returns (rule R24): position registers sign-extended, the others zero-extended, `CMD` 0. -/
def State.regValue (s : State) : Reg → Word
  | .cmd => 0
  | .status => s.status
  | .codecSel => s.codecSel.setWidth 32
  | .nElems => s.nElems
  | .encCap => s.encCap
  | .encLen => s.encLen
  | .px => s.px.signExtend 32
  | .py => s.py.signExtend 32
  | .pz => s.pz.signExtend 32
  | .cr => s.cr.setWidth 32
  | .cg => s.cg.setWidth 32
  | .cb => s.cb.setWidth 32
  | .pkLo => s.pkLo
  | .pkHi => s.pkHi

/-- What a host write stores (rule R23): the low bits of the value; `STATUS` and `CODEC_SEL` are read-only and ignore it (rules R26,
R28). `CMD` stores nothing: writing it executes a command, which the transaction does (rule R25). -/
def State.regStore (s : State) (v : Word) : Reg → State
  | .cmd | .status | .codecSel => s
  | .nElems => s.withNElems v
  | .encCap => s.withEncCap v
  | .encLen => s.withEncLen v
  | .px => s.withPosition (v.setWidth 16) s.py s.pz
  | .py => s.withPosition s.px (v.setWidth 16) s.pz
  | .pz => s.withPosition s.px s.py (v.setWidth 16)
  | .cr => s.withColour (v.setWidth 8) s.cg s.cb
  | .cg => s.withColour s.cr (v.setWidth 8) s.cb
  | .cb => s.withColour s.cr s.cg (v.setWidth 8)
  | .pkLo => s.withPacked v s.pkHi
  | .pkHi => s.withPacked s.pkLo v

/-! ### Elements of an array -/

/-- The width `W` in bits (rule R170). -/
def widthBits : Width → Nat
  | .w32 => 32
  | .w64 => 64

/-- `K = W/32`, the number of words of an element (rule R170). -/
def widthWords : Width → Nat
  | .w32 => 1
  | .w64 => 2

/-- The elements `x[0 .. n−1]` of an array that starts at index 0 of a buffer (rules R51, R170). -/
def State.elements (s : State) (W : Width) (sp : Space) (n : Nat) : List Nat :=
  (List.range n).map fun i => s.memRead sp (widthWords W * i) (widthWords W)

/-- The words an element is stored as, low half first (rules R11, R51). -/
def elementWords (W : Width) (x : Nat) : List Word := wordsOf (widthWords W) x

/-- The words `s[0 .. m−1]` of a buffer. -/
def State.words (s : State) (sp : Space) (m : Nat) : List Word := (List.range m).map fun i => s.word sp i

/-! ### Words as bytes, outside the unit -/

/-- The four bytes of a word, little-endian: byte `j` holds bits `8j+7 : 8j` (rule R50). -/
def wordBytes (w : Word) : List Byte :=
  [w.extractLsb' 0 8, w.extractLsb' 8 8, w.extractLsb' 16 8, w.extractLsb' 24 8]

/-- A stream stored as bytes: word `k` occupies bytes `4k .. 4k+3` (rule R50). -/
def streamBytes (ws : List Word) : List Byte := ws.flatMap wordBytes

/-- A stream loaded from bytes; none when the byte count is not a multiple of 4 (rules R50, R53). -/
def streamOfBytes : List Byte → Option (List Word)
  | [] => some []
  | a :: b :: c :: d :: rest =>
    match streamOfBytes rest with
    | some ws => some ((d ++ (c ++ (b ++ a))) :: ws)
    | none => none
  | _ => none

/-- `EncLen`, the byte count of a stream of `ENC_LEN` words in the container (rule R53). -/
def encLenBytes (encLen : Word) : Nat := 4 * encLen.toNat

end Sys2Proof.Machine
end

