-- ==== Sys2Proof/Machine/Stream.lean ====
section
/-! DEFINITION. The stream format IDFOR-1: the presets (rule R131), the delta stage (rule R136), frame-of-reference blocks (rules R137 to
R144), the variable-byte tail (rules R150, R151), and the encoder and decoder as functions (rules R152 to R159). -/

namespace Sys2Proof.Machine

/-! ### Presets -/

/-- The preset a selector names (rule R131). -/
def presetOf (sel : BitVec 2) : Preset :=
  match sel.toNat with
  | 0 => .dpforVb
  | 1 => .dforVb
  | 2 => .dpfor
  | _ => .dvb

/-- The selector of a preset (rule R131). -/
def presetSel : Preset → Nat
  | .dpforVb => 0
  | .dforVb => 1
  | .dpfor => 2
  | .dvb => 3

/-- Full groups of 128 elements are coded as blocks (rule R131). -/
def blockStage : Preset → Bool
  | .dpforVb | .dforVb | .dpfor => true
  | .dvb => false

/-- A block may have exceptions (rule R131). -/
def patched : Preset → Bool
  | .dpforVb | .dpfor => true
  | .dforVb | .dvb => false

/-- Elements not in a block are coded as variable-byte (rule R131). -/
def tailStage : Preset → Bool
  | .dpforVb | .dforVb | .dvb => true
  | .dpfor => false

/-- The block requirement, 1 or 128 (rule R131). -/
def blockReq : Preset → Nat
  | .dpfor => 128
  | .dpforVb | .dforVb | .dvb => 1

/-- `nb`, the number of blocks (rule R132). -/
def blockCount (p : Preset) (n : Nat) : Nat := if blockStage p then n / 128 else 0

/-- `r`, the number of elements coded in the tail section (rule R132). -/
def tailCount (p : Preset) (n : Nat) : Nat := if tailStage p then n - 128 * blockCount p n else 0

/-- `VBMAX`, the most bytes of a variable-byte code (rule R150). -/
def vbMax : Width → Nat
  | .w32 => 5
  | .w64 => 10

/-- Bit 30 of the header (rule R134). -/
def w64Bit : Width → Nat
  | .w32 => 0
  | .w64 => 1

/-- The header word `S[0] = n + 2^28·sel + 2^30·w64` (rule R134). -/
def headerWord (W : Width) (p : Preset) (n : Nat) : Word :=
  BitVec.ofNat 32 (n + 2 ^ 28 * presetSel p + 2 ^ 30 * w64Bit W)

/-! ### Delta stage -/

/-- `d[i] = (x[i] − x[i−1]) mod 2^W`, the first element's predecessor being `prev` (rule R136). -/
def deltas (w prev : Nat) : List Nat → List Nat
  | [] => []
  | x :: xs => subMod w x prev :: deltas w x xs

/-- `x[i] = (x[i−1] + d[i]) mod 2^W`, the inverse of the delta stage (rule R136). -/
def undelta (w prev : Nat) : List Nat → List Nat
  | [] => []
  | d :: ds => addMod w prev d :: undelta w (addMod w prev d) ds

/-! ### Frame-of-reference blocks -/

/-- The signed minimum of `m` and the deltas, the earliest one kept (rule R138). -/
def signedMin (w m : Nat) : List Nat → Nat
  | [] => m
  | d :: ds => signedMin w (if sint w d < sint w m then d else m) ds

/-- `ref`, the block's minimum delta read as a signed number of `w` bits (rule R138). DESIGN CHOICE (log entry 17): rule R174 remarks that
ENC64 gives ENC32's stream but for header bit 30 and zero reference words on a non-decreasing array below `2^32`; where a block holds
a delta of at least `2^31` that remark and rule R138 disagree, and the model follows rule R138. -/
def reference (w : Nat) : List Nat → Nat
  | [] => 0
  | d :: ds => signedMin w d ds

/-- `v[i] = (d[i] − ref) mod 2^W` (rule R138). -/
def offsets (w : Nat) (ds : List Nat) : List Nat := ds.map fun d => subMod w d (reference w ds)

/-- `mb = bitlen(max_i v[i])` (rule R139). -/
def maxWidth (vs : List Nat) : Nat := bitlen (vs.foldl max 0)

/-- `e(c)`, the number of values of at least `2^c` (rule R140). -/
def excCount (vs : List Nat) (c : Nat) : Nat := vs.countP fun v => decide (2 ^ c ≤ v)

/-- `cost(c)`, in words (rule R140). -/
def cost (vs : List Nat) (mb c : Nat) : Nat :=
  4 * c + (if excCount vs c = 0 then 0 else ceilDiv (excCount vs c) 4 + ceilDiv (excCount vs c * (mb - c)) 32)

/-- The search of rule R140 from the candidate below `c` down to 0: `b` is the best so far, of cost `k`; only a strictly lower cost
replaces it, so the largest of the cheapest stays. -/
def pickWidth (vs : List Nat) (mb : Nat) : Nat → Nat → Nat → Nat
  | 0, b, _ => b
  | c + 1, b, k => if cost vs mb c < k then pickWidth vs mb c c (cost vs mb c) else pickWidth vs mb c b k

/-- The packed width `b` (rule R140). -/
def packedWidth (isPatched : Bool) (vs : List Nat) (mb : Nat) : Nat :=
  if isPatched then pickWidth vs mb mb mb (cost vs mb mb) else mb

/-- The exceptions of a block as (position, value) pairs, positions rising from `i` (rule R143). -/
def exceptions (b i : Nat) : List Nat → List (Nat × Nat)
  | [] => []
  | v :: vs => if 2 ^ b ≤ v then (i, v) :: exceptions b (i + 1) vs else exceptions b (i + 1) vs

/-- The descriptor word (rule R141). -/
def descriptorWord (b mb e : Nat) : Word := BitVec.ofNat 32 (b + 2 ^ 8 * mb + 2 ^ 16 * e)

/-- The words of a block of packed width `b` (rules R137, R141 to R144). -/
def blockWords (W : Width) (ref mb b : Nat) (vs : List Nat) : List Word :=
  let ex := exceptions b 0 vs
  descriptorWord b mb ex.length :: wordsOf (widthWords W) ref ++ packbits (vs.map fun v => v % 2 ^ b) b ++
    (if ex.length = 0 then []
     else packbits (ex.map fun x => x.1) 8 ++ packbits (ex.map fun x => x.2 / 2 ^ b) (mb - b))

/-- The block that codes 128 deltas (rules R137 to R144). -/
def encodeBlock (W : Width) (isPatched : Bool) (ds : List Nat) : List Word :=
  let vs := offsets (widthBits W) ds
  let mb := maxWidth vs
  blockWords W (reference (widthBits W) ds) mb (packedWidth isPatched vs mb) vs

/-- `nb` blocks, each coding the next 128 deltas (rule R152). -/
def encodeBlocks (W : Width) (isPatched : Bool) : Nat → List Nat → List Word
  | 0, _ => []
  | k + 1, ds => encodeBlock W isPatched (ds.take 128) ++ encodeBlocks W isPatched k (ds.drop 128)

/-! ### Variable-byte tail -/

/-- The variable-byte code of a delta with at most `k` bytes before the last one: low 7-bit groups first, bit 7 set on all but the
last (rule R150). With `k = VBMAX − 1` the bound is never reached by a value below `2^W` (log entry 13). -/
def varbyteCode : Nat → Nat → List Nat
  | 0, d => [d]
  | k + 1, d => if 128 ≤ d then (d % 128 + 128) :: varbyteCode k (d / 128) else [d]

/-- The variable-byte code of one delta, in the shortest form (rule R150). -/
def varbyte (W : Width) (d : Nat) : List Nat := varbyteCode (vbMax W - 1) d

/-- The tail section (rule R151). -/
def encodeTail (W : Width) (ds : List Nat) : List Word := packbits (ds.flatMap (varbyte W)) 8

/-! ### The encoder -/

/-- `encode_stream(x, W, sel)` (rule R152). -/
def encodeStream (W : Width) (p : Preset) (xs : List Nat) : List Word :=
  if xs.length = 0 then []
  else
    let ds := deltas (widthBits W) 0 xs
    let nb := blockCount p xs.length
    headerWord W p xs.length :: encodeBlocks W (patched p) nb ds ++
      (if tailStage p then encodeTail W (ds.drop (128 * nb)) else [])

/-! ### The decoder -/

/-- `rd()`: the next word of the stream, `E_TRUNCATED` past its end; the stream is the words not yet read (rule R153). -/
def rd : List Word → Except ErrCode (Word × List Word)
  | [] => .error .truncated
  | w :: ws => .ok (w, ws)

/-- `rd() × k times` (rules R153, R156). -/
def rdMany : Nat → List Word → Except ErrCode (List Word × List Word)
  | 0, ws => .ok ([], ws)
  | k + 1, ws =>
    (rd ws).bind fun r =>
    (rdMany k r.2).bind fun q => .ok (r.1 :: q.1, q.2)

/-- The header test, the three `E_HEADER` conditions before the count (rule R155). -/
def checkHeader (W : Width) (p : Preset) (n : Nat) (h : Word) : Except ErrCode Unit :=
  if slice h.toNat 31 31 ≠ 0 ∨ slice h.toNat 29 28 ≠ presetSel p ∨ slice h.toNat 30 30 ≠ w64Bit W then .error .header
  else if slice h.toNat 27 0 ≠ n then .error .count
  else .ok ()

/-- The descriptor is valid (rule R156). -/
def descriptorOk (W : Width) (isPatched : Bool) (D : Nat) : Bool :=
  let b := slice D 6 0
  let mb := slice D 14 8
  let e := slice D 23 16
  !(decide (slice D 7 7 ≠ 0 ∨ slice D 15 15 ≠ 0 ∨ slice D 31 24 ≠ 0 ∨ mb < b ∨ widthBits W < mb ∨ 128 < e ∨ (0 < e ∧ b = mb)) ||
    (decide (0 < e) && !isPatched))

/-- Every position is at least `lo`, below 128, and above the one before it (rule R156). -/
def positionsOk : Nat → List Nat → Bool
  | _, [] => true
  | lo, p :: ps => decide (lo ≤ p ∧ p ≤ 127) && positionsOk (p + 1) ps

/-- `low[p] <- low[p] + x` (rule R156). -/
def addAt : Nat → Nat → List Nat → List Nat
  | _, _, [] => []
  | 0, x, v :: vs => (v + x) :: vs
  | p + 1, x, v :: vs => v :: addAt p x vs

/-- `low[p[q]] <- low[p[q]] + 2^b·hi[q]` for every exception, in order (rule R156). -/
def patch (b : Nat) : List (Nat × Nat) → List Nat → List Nat
  | [], vs => vs
  | (p, h) :: rest, vs => patch b rest (addAt p (2 ^ b * h) vs)

/-- The exceptions of a block: the position words, their test, then the high-part words (rule R156). -/
def rdExceptions (b mb e : Nat) (low : List Nat) (ws : List Word) : Except ErrCode (List Nat × List Word) :=
  if e = 0 then .ok (low, ws)
  else
    (rdMany (ceilDiv e 4) ws).bind fun pw =>
    let ps := unpackbits pw.1 e 8
    if positionsOk 0 ps then
      (rdMany (ceilDiv (e * (mb - b)) 32) pw.2).bind fun hw =>
      .ok (patch b (ps.zip (unpackbits hw.1 e (mb - b))) low, hw.2)
    else .error .descriptor

/-- One block: its 128 deltas and the words after it (rule R156). -/
def decodeBlock (W : Width) (isPatched : Bool) (ws : List Word) : Except ErrCode (List Nat × List Word) :=
  (rd ws).bind fun r =>
  let D := r.1.toNat
  if descriptorOk W isPatched D then
    let b := slice D 6 0
    let mb := slice D 14 8
    let e := slice D 23 16
    (rdMany (widthWords W) r.2).bind fun refs =>
    (rdMany (4 * b) refs.2).bind fun lows =>
    (rdExceptions b mb e (unpackbits lows.1 128 b) lows.2).bind fun ex =>
    .ok (ex.1.map fun v => addMod (widthBits W) v (ofWords refs.1), ex.2)
  else .error .descriptor

/-- `nb` blocks: their deltas and the words after them (rule R156). -/
def decodeBlocks (W : Width) (isPatched : Bool) : Nat → List Word → Except ErrCode (List Nat × List Word)
  | 0, ws => .ok ([], ws)
  | k + 1, ws =>
    (decodeBlock W isPatched ws).bind fun r =>
    (decodeBlocks W isPatched k r.2).bind fun q => .ok (r.1 ++ q.1, q.2)

/-- The next byte of the tail section: from the bytes left of the current word, else from a new word (rule R158). -/
def nextByte (cur : List Nat) (ws : List Word) : Except ErrCode (Nat × List Nat × List Word) :=
  match cur with
  | b :: bs => .ok (b, bs, ws)
  | [] =>
    (rd ws).bind fun r =>
    .ok (slice r.1.toNat 7 0, [slice r.1.toNat 15 8, slice r.1.toNat 23 16, slice r.1.toNat 31 24], r.2)

/-- The loop of rule R158 for one value, `left` bytes being still allowed, `k` read and `d` accumulated: the last byte allowed is the
one with `k = VBMAX − 1`. -/
def rdVarbyte (W : Width) : Nat → Nat → Nat → List Nat → List Word → Except ErrCode (Nat × List Nat × List Word)
  | 0, _, _, _, _ => .error .varbyte
  | left + 1, k, d, cur, ws =>
    (nextByte cur ws).bind fun r =>
    if left = 0 ∧ (128 ≤ r.1 ∨ 2 ^ (widthBits W - 7 * k) ≤ r.1) then .error .varbyte
    else if r.1 < 128 then .ok (d + 2 ^ (7 * k) * (r.1 % 128), r.2.1, r.2.2)
    else rdVarbyte W left (k + 1) (d + 2 ^ (7 * k) * (r.1 % 128)) r.2.1 r.2.2

/-- The tail: `r` deltas and the words after it (rule R158). The bytes left of the last word are ignored. -/
def decodeTail (W : Width) : Nat → List Nat → List Word → Except ErrCode (List Nat × List Word)
  | 0, _, ws => .ok ([], ws)
  | r + 1, cur, ws =>
    (rdVarbyte W (vbMax W) 0 0 cur ws).bind fun v =>
    (decodeTail W r v.2.1 v.2.2).bind fun q => .ok (v.1 :: q.1, q.2)

/-- `decode_stream(S, m, n, W, sel)`, the stream being the list of its `m` words (rules R153 to R159). The deltas are read first and summed
at the end; no error depends on the sums (log entry 13). -/
def decodeStream (W : Width) (p : Preset) (n : Nat) (ws : List Word) : Except ErrCode (List Nat) :=
  if n = 0 then (if ws.length = 0 then .ok [] else .error .length)
  else
    (rd ws).bind fun h =>
    (checkHeader W p n h.1).bind fun _ =>
    (decodeBlocks W (patched p) (blockCount p n) h.2).bind fun bl =>
    (decodeTail W (tailCount p n) [] bl.2).bind fun tl =>
    if tl.2.length = 0 then .ok (undelta (widthBits W) 0 (bl.1 ++ tl.1)) else .error .length

end Sys2Proof.Machine
end

