-- ==== Sys2Proof/Machine/System.lean ====
section
/-! DEFINITION. The system commands NOP and SETCODEC (rules R101, R102). -/

namespace Sys2Proof.Machine

/-- NOP: nothing but `STATUS <- 0` (rule R101). -/
def execNop (s : State) : Host.Outcome State Fault Refusal := .next s.succeed

/-- SETCODEC imm8: `E_SELECTOR` above 3, else `CODEC_SEL <- imm8` (rule R102). -/
def execSetcodec (imm8 : Byte) (s : State) : Host.Outcome State Fault Refusal :=
  if 3 < imm8.toNat then .next (s.raise .selector) else .next (s.withCodecSel (imm8.setWidth 2)).succeed

end Sys2Proof.Machine
end

