-- ==== Sys2Proof/Machine/Codec.lean ====
section
/-! DEFINITION. The codec commands ENC32, ENC64, DEC32, DEC64 (rules R170 to R180). -/

namespace Sys2Proof.Machine

/-- `req`, the block requirement of the selected preset (rule R170). -/
def State.req (s : State) : Nat := blockReq (presetOf s.codecSel)

/-- The stream `S` an ENC command computes from IBUF (rule R172, step 3). -/
def State.encStream (s : State) (W : Width) : List Word :=
  encodeStream W (presetOf s.codecSel) (s.elements W .ibuf s.nElems.toNat)

/-- The checks of `ENC(W)` in their order, and the stream (rule R172, steps 1 to 4). -/
def State.encResult (s : State) (W : Width) : Except ErrCode (List Word) :=
  if Config.maxN < s.nElems.toNat ∨ s.params.ibufWords < widthWords W * s.nElems.toNat then .error .range
  else if s.nElems.toNat % s.req ≠ 0 then .error .blocklen
  else if s.encCap.toNat < (s.encStream W).length ∨ s.params.obufWords < (s.encStream W).length then .error .capacity
  else .ok (s.encStream W)

/-- `ENC(W)` (rule R172). -/
def encCommand (W : Width) (s : State) : State :=
  match s.encResult W with
  | .error c => s.failEnc c
  | .ok S => ((s.writeOutput S).withEncLen (BitVec.ofNat 32 S.length)).succeed

/-- The elements a DEC command decodes from IBUF, or the stream's error (rule R178, step 4). -/
def State.decStream (s : State) (W : Width) : Except ErrCode (List Nat) :=
  decodeStream W (presetOf s.codecSel) s.nElems.toNat (s.words .ibuf s.encLen.toNat)

/-- The checks of `DEC(W)` in their order, and the elements (rule R178, steps 1 to 4). -/
def State.decResult (s : State) (W : Width) : Except ErrCode (List Nat) :=
  if Config.maxN < s.nElems.toNat ∨ s.params.ibufWords < s.encLen.toNat then .error .range
  else if s.nElems.toNat % s.req ≠ 0 then .error .blocklen
  else if s.params.obufWords < widthWords W * s.nElems.toNat then .error .capacity
  else s.decStream W

/-- `DEC(W)` (rule R178). -/
def decCommand (W : Width) (s : State) : State :=
  match s.decResult W with
  | .error c => s.failDec (widthWords W) c
  | .ok xs => (s.writeOutput (xs.flatMap (elementWords W))).succeed

/-- ENC32 (rule R171). -/
def execEnc32 (s : State) : Host.Outcome State Fault Refusal := .next (encCommand .w32 s)

/-- ENC64 (rule R174). -/
def execEnc64 (s : State) : Host.Outcome State Fault Refusal := .next (encCommand .w64 s)

/-- DEC32 (rule R177). -/
def execDec32 (s : State) : Host.Outcome State Fault Refusal := .next (decCommand .w32 s)

/-- DEC64 (rule R180). -/
def execDec64 (s : State) : Host.Outcome State Fault Refusal := .next (decCommand .w64 s)

end Sys2Proof.Machine
end

