-- ==== Sys2Proof/Machine/Voxel.lean ====
section
/-! DEFINITION. The PackedVoxel commands PACK64, PACK32, UNPACK64, UNPACK32 and the packed format (rules R111 to R119). -/

namespace Sys2Proof.Machine

/-- `BIAS_X` and `BIAS_Y` (rule R112). -/
def biasXY : Nat := 4096

/-- `BIAS_Z` (rule R112). -/
def biasZ : Nat := 0

/-- `field(p, B, w) = (sint_16(p) + B) mod 2^w` (rule R113). -/
def voxelField (p : Half) (B w : Nat) : Nat := ((sint 16 p.toNat + B) % 2 ^ w).toNat

/-- The packed word `P` (rule R114). -/
def packWord (x y z : Half) (r g b : Byte) : Nat :=
  voxelField x biasXY 13 + 2 ^ 13 * voxelField y biasXY 13 + 2 ^ 26 * voxelField z biasZ 14 +
    2 ^ 40 * r.toNat + 2 ^ 48 * g.toNat + 2 ^ 56 * b.toNat

/-- A position component from its field: `(u − B) mod 2^16` (rule R117). -/
def voxelComponent (u B : Nat) : Half := BitVec.ofNat 16 (subMod 16 u B)

/-- The packed word in `PK_HI:PK_LO` (rule R34). -/
def State.packed (s : State) : Nat := s.pkLo.toNat + 2 ^ 32 * s.pkHi.toNat

/-- Packing the voxel of the operand registers: `PK_LO <- P[31:0]`, `PK_HI <- P[63:32]` (rules R115, R119). -/
def State.packVoxel (s : State) : State :=
  let P := packWord s.px s.py s.pz s.cr s.cg s.cb
  s.withPacked (BitVec.ofNat 32 (slice P 31 0)) (BitVec.ofNat 32 (slice P 63 32))

/-- Unpacking `PK_HI:PK_LO` into the operand registers (rule R117). -/
def State.unpackVoxel (s : State) : State :=
  let P := s.packed
  (s.withPosition (voxelComponent (slice P 12 0) biasXY) (voxelComponent (slice P 25 13) biasXY)
      (voxelComponent (slice P 39 26) biasZ)).withColour
    (BitVec.ofNat 8 (slice P 47 40)) (BitVec.ofNat 8 (slice P 55 48)) (BitVec.ofNat 8 (slice P 63 56))

/-- PACK64 (rule R115). -/
def execPack64 (s : State) : Host.Outcome State Fault Refusal := .next s.packVoxel.succeed

/-- PACK32: the same, the pair being the two halves of the word (rules R116, R119). -/
def execPack32 (s : State) : Host.Outcome State Fault Refusal := .next s.packVoxel.succeed

/-- UNPACK64 (rule R117). -/
def execUnpack64 (s : State) : Host.Outcome State Fault Refusal := .next s.unpackVoxel.succeed

/-- UNPACK32: the same, the input being a pair (rules R118, R119). -/
def execUnpack32 (s : State) : Host.Outcome State Fault Refusal := .next s.unpackVoxel.succeed

end Sys2Proof.Machine
end

