-- ==== Sys2Proof/Machine/Dispatch.lean ====
section
/-! DEFINITION. The meaning of every command: one arm per constructor of Instr (rule R85). -/

namespace Sys2Proof.Machine

def exec (i : Instr) (s : State) : Host.Outcome State Fault Refusal :=
  match i with
  | .nop => Sys2Proof.Machine.execNop s
  | .setcodec imm8 => Sys2Proof.Machine.execSetcodec imm8 s
  | .enc32 => Sys2Proof.Machine.execEnc32 s
  | .enc64 => Sys2Proof.Machine.execEnc64 s
  | .dec32 => Sys2Proof.Machine.execDec32 s
  | .dec64 => Sys2Proof.Machine.execDec64 s
  | .pack64 => Sys2Proof.Machine.execPack64 s
  | .pack32 => Sys2Proof.Machine.execPack32 s
  | .unpack64 => Sys2Proof.Machine.execUnpack64 s
  | .unpack32 => Sys2Proof.Machine.execUnpack32 s

end Sys2Proof.Machine
end

