-- ==== Sys2Proof/Machine/Transact.lean ====
section
/-! DEFINITION. The five host transactions (rules R22 to R25, R56 to R59, R230) and the execution of a command word (rule R86). -/

namespace Sys2Proof.Machine

/-- A step that ends in a next state also records what the transaction returns (log entry 2). -/
def answering (r : Response) : Host.Outcome State Fault Refusal → Host.Outcome State Fault Refusal
  | .next s => .next (s.withResponse r)
  | .fault f => .fault f
  | .refused q => .refused q

/-- Rule R86: a word that decodes is executed, any other raises `E_ILLEGAL_CMD` and changes nothing else (rule R87). -/
def runCommand (cw : Word) (s : State) : Host.Outcome State Fault Refusal :=
  match decode cw with
  | .ok i => exec i s
  | .error _ => .next (s.raise .illegalCmd)

/-- What `RegRead(k)` returns: `BusErr` from 16 on, 0 for the reserved numbers (rules R22, R24, R59). -/
def State.regRead (s : State) (k : Nat) : Response :=
  if 16 ≤ k then .busErr
  else
    match regAt k with
    | some r => .value (s.regValue r)
    | none => .value 0

/-- `RegWrite(k, v)`: `BusErr` from 16 on, a command for `k = 0`, nothing for the reserved numbers (rules R22, R23, R25, R59). -/
def State.regWrite (s : State) (k : Nat) (v : Word) : Host.Outcome State Fault Refusal :=
  if 16 ≤ k then .next (s.withResponse .busErr)
  else
    match regAt k with
    | some .cmd => answering .done (runCommand v s)
    | some r => .next ((s.regStore v r).withResponse .done)
    | none => .next (s.withResponse .done)

/-- What `BufRead(s, i)` returns (rules R57, R59). -/
def State.bufRead (s : State) (sp : Space) (i : Nat) : Response :=
  if i < s.params.size sp then .value (s.word sp i) else .busErr

/-- `BufWrite(s, i, v)` (rules R58, R59). -/
def State.bufWrite (s : State) (sp : Space) (i : Nat) (v : Word) : State :=
  if i < s.params.size sp then (s.writeWord sp i v).withResponse .done else s.withResponse .busErr

/-- One transaction, complete and atomic (rules R56, R63, R64). -/
def transact (t : Txn) (s : State) : Host.Outcome State Fault Refusal :=
  match t with
  | .regRead k => .next (s.withResponse (s.regRead k))
  | .regWrite k v => s.regWrite k v
  | .bufRead sp i => .next (s.withResponse (s.bufRead sp i))
  | .bufWrite sp i v => .next (s.bufWrite sp i v)
  | .reset => .next (s.resetUnit.withResponse .done)

end Sys2Proof.Machine
end

