-- ==== Sys2Proof/Machine/Step.lean ====
section
/-! DEFINITION. One step: the next pending transaction of the host (rules R20, R30, R63), and where the host's checks place a command
word. -/

namespace Sys2Proof.Machine

/-- The first pending transaction is performed and its place in the list passed, whatever its outcome (rule R30); with none pending no
state changes (rule R20; log entry 8). -/
def step (s : State) : Host.Outcome State Fault Refusal :=
  match s.program with
  | [] => .next s
  | t :: ts => transact t (s.withProgram ts)

/-- The transaction `RegWrite(0, w)` is put before the pending ones: the unit fetches nothing, its commands are the data of writes to
`CMD` (rules R25, R30, R68; log entry 1). -/
def State.withFetchWord (s : State) (nbits w : Nat) : State :=
  s.withProgram (.regWrite 0 (BitVec.ofNat 32 (w % 2 ^ nbits)) :: s.program)

end Sys2Proof.Machine
end

