-- ==== Sys2Proof/Machine/Program.lean ====
section
/-! DEFINITION. Program text: the transactions each line stands for (rules R90, R91), and how a line is written (rule R90). -/

namespace Sys2Proof.Machine

/-- A number of program text as a 32-bit value: `−k` stands for `2^32 − k` (rule R90). -/
def numberWord (v : Int) : Word := BitVec.ofInt 32 v

/-- `np = 128·ceil(n / 128)`, the padded count (rules R91, R183). -/
def paddedCount (n : Nat) : Nat := 128 * ceilDiv n 128

/-- Consecutive buffer writes from index `i` on. -/
def bufWrites (sp : Space) : Nat → List Word → List Txn
  | _, [] => []
  | i, v :: vs => .bufWrite sp i v :: bufWrites sp (i + 1) vs

/-- The command that encodes elements of a width. -/
def encInstr : Width → Instr
  | .w32 => .enc32
  | .w64 => .enc64

/-- The command that decodes elements of a width. -/
def decInstr : Width → Instr
  | .w32 => .dec32
  | .w64 => .dec64

/-- `wr NAME, value` (rule R90). -/
def wrTxn (r : Reg) (v : Int) : Txn := .regWrite (regNumber r) (numberWord v)

/-- A command line (rule R90). -/
def commandTxn (i : Instr) : Txn := .regWrite 0 (encode i)

/-- The transactions of a line (rules R90, R91). -/
def expandLine : Line → List Txn
  | .wr r v => [wrTxn r v]
  | .rd r => [.regRead (regNumber r)]
  | .ibuf i vs => bufWrites .ibuf i (vs.map numberWord)
  | .obuf i v => [.bufWrite .obuf i (numberWord v)]
  | .rdbuf sp i => [.bufRead sp i]
  | .command i => [commandTxn i]
  | .word v => [.regWrite 0 (numberWord v)]
  | .reset => [.reset]
  | .encp W n =>
    bufWrites .ibuf (widthWords W * n) (List.replicate (widthWords W * paddedCount n - widthWords W * n) 0) ++
      [.regWrite (regNumber .nElems) (BitVec.ofNat 32 (paddedCount n)), commandTxn (encInstr W)]
  | .decp W n => [.regWrite (regNumber .nElems) (BitVec.ofNat 32 (paddedCount n)), commandTxn (decInstr W)]
  | .setpos x y z => [wrTxn .px x, wrTxn .py y, wrTxn .pz z]
  | .setcol r g b => [wrTxn .cr r, wrTxn .cg g, wrTxn .cb b]
  | .setpk lo hi => [wrTxn .pkLo lo, wrTxn .pkHi hi]

/-- A program: its lines' transactions, strictly in sequence (rule R30). -/
def expandProgram (ls : List Line) : List Txn := ls.flatMap expandLine

/-- A state with a program to run after the transactions already pending (log entry 1). -/
def State.load (s : State) (ls : List Line) : State := s.withProgram (s.program ++ expandProgram ls)

/-- The name of a register (rule R21). -/
def regName : Reg → String
  | .cmd => "CMD"
  | .status => "STATUS"
  | .codecSel => "CODEC_SEL"
  | .nElems => "N_ELEMS"
  | .encCap => "ENC_CAP"
  | .encLen => "ENC_LEN"
  | .px => "PX"
  | .py => "PY"
  | .pz => "PZ"
  | .cr => "CR"
  | .cg => "CG"
  | .cb => "CB"
  | .pkLo => "PK_LO"
  | .pkHi => "PK_HI"

/-- A command as program text (rules R85, R90). -/
def commandText : Instr → String
  | .nop => "NOP"
  | .setcodec imm8 => "SETCODEC " ++ toString imm8.toNat
  | .enc32 => "ENC32"
  | .enc64 => "ENC64"
  | .dec32 => "DEC32"
  | .dec64 => "DEC64"
  | .pack64 => "PACK64"
  | .pack32 => "PACK32"
  | .unpack64 => "UNPACK64"
  | .unpack32 => "UNPACK32"

/-- Numbers separated as rule R90 writes them. -/
def numbersText (vs : List Int) : String := ", ".intercalate (vs.map fun v => toString v)

/-- The name of a buffer in program text (rule R90). -/
def spaceText : Space → String
  | .ibuf => "ibuf"
  | .obuf => "obuf"

/-- The suffix of a width in a pseudo-command's name (rule R91). -/
def widthText : Width → String
  | .w32 => "32"
  | .w64 => "64"

/-- A line as program text, numbers in decimal (rules R90, R91; log entry 14). -/
def lineText : Line → String
  | .wr r v => "wr " ++ regName r ++ ", " ++ toString v
  | .rd r => "rd " ++ regName r
  | .ibuf i vs =>
    if vs.length ≤ 1 then "ibuf[" ++ toString i ++ "] = " ++ numbersText vs
    else "ibuf[" ++ toString i ++ ".." ++ toString (i + vs.length - 1) ++ "] = " ++ numbersText vs
  | .obuf i v => "obuf[" ++ toString i ++ "] = " ++ toString v
  | .rdbuf sp i => "rdbuf " ++ spaceText sp ++ "[" ++ toString i ++ "]"
  | .command i => commandText i
  | .word v => ".word " ++ toString v
  | .reset => "reset"
  | .encp W n => "ENCP" ++ widthText W ++ " " ++ toString n
  | .decp W n => "DECP" ++ widthText W ++ " " ++ toString n
  | .setpos x y z => "SETPOS " ++ numbersText [x, y, z]
  | .setcol r g b => "SETCOL " ++ numbersText [r, g, b]
  | .setpk lo hi => "SETPK " ++ numbersText [lo, hi]

end Sys2Proof.Machine
end

