-- ==== Sys2Proof/Safety.lean ====
section
/-! DEFINITION. What counts as a safe state and a safe run, and the read and write sets of rule R40, in the terms the statements use. -/

namespace Sys2Proof.Machine

/-- The invariant of the machine: the sizes meet rule R5, both buffers are in canonical form, and `STATUS` holds one of the twelve
values of rule R27. -/
def State.inv (s : State) : Bool :=
  s.params.wf && s.ibuf.wf s.params.ibufWords s.freeNext && s.obuf.wf s.params.obufWords s.freeNext &&
    decide (s.status ∈ statusValues)

/-- Every pending transaction names an existing register number or buffer word, so that none ends in `BusErr`; a program without this
property is the one rule R59 calls refused (log entry 3). -/
def State.programOk (s : State) : Bool := s.program.all (Txn.wf s.params)

/-- Two states hold the same voxel in the operand registers. -/
def SameVoxel (s t : State) : Prop :=
  s.px = t.px ∧ s.py = t.py ∧ s.pz = t.pz ∧ s.cr = t.cr ∧ s.cg = t.cg ∧ s.cb = t.cb

/-- Two states hold the same words at the indices below `m` of a buffer. -/
def SameWords (sp : Space) (m : Nat) (s t : State) : Prop := ∀ k, k < m → s.word sp k = t.word sp k

/-- The operands of a codec command that encodes: the columns 'registers read' and 'buffer words read' of rule R40. -/
def SameEncInputs (W : Width) (s t : State) : Prop :=
  s.codecSel = t.codecSel ∧ s.nElems = t.nElems ∧ s.encCap = t.encCap ∧ SameWords .ibuf (widthWords W * s.nElems.toNat) s t

/-- The operands of a codec command that decodes (rule R40). -/
def SameDecInputs (s t : State) : Prop :=
  s.codecSel = t.codecSel ∧ s.nElems = t.nElems ∧ s.encLen = t.encLen ∧ SameWords .ibuf s.encLen.toNat s t

/-- Two states of units of the same sizes agree on everything a command reads (rules R37, R40). -/
def SameInputs (i : Instr) (s t : State) : Prop :=
  s.params = t.params ∧
  match i with
  | .nop => True
  | .setcodec _ => True
  | .enc32 => SameEncInputs .w32 s t
  | .enc64 => SameEncInputs .w64 s t
  | .dec32 => SameDecInputs s t
  | .dec64 => SameDecInputs s t
  | .pack64 => SameVoxel s t
  | .pack32 => SameVoxel s t
  | .unpack64 => s.pkLo = t.pkLo ∧ s.pkHi = t.pkHi
  | .unpack32 => s.pkLo = t.pkLo ∧ s.pkHi = t.pkHi

/-- Two states agree on `STATUS` and on everything a command writes when it succeeds, and on the `ENC_LEN` an encoding command writes
when it fails (rules R37, R40, R204). -/
def SameResults (i : Instr) (s t : State) : Prop :=
  s.status = t.status ∧
  match i with
  | .nop => True
  | .setcodec _ => s.status = 0 → s.codecSel = t.codecSel
  | .enc32 => s.encLen = t.encLen ∧ (s.status = 0 → SameWords .obuf s.encLen.toNat s t)
  | .enc64 => s.encLen = t.encLen ∧ (s.status = 0 → SameWords .obuf s.encLen.toNat s t)
  | .dec32 => s.status = 0 → SameWords .obuf s.nElems.toNat s t
  | .dec64 => s.status = 0 → SameWords .obuf (2 * s.nElems.toNat) s t
  | .pack64 => s.pkLo = t.pkLo ∧ s.pkHi = t.pkHi
  | .pack32 => s.pkLo = t.pkLo ∧ s.pkHi = t.pkHi
  | .unpack64 => SameVoxel s t
  | .unpack32 => SameVoxel s t

/-- `x[i]`, element `i` of the array in a buffer, as rule R51 writes it. -/
def State.element (s : State) (W : Width) (sp : Space) (i : Nat) : Nat :=
  match W with
  | .w32 => (s.word sp i).toNat
  | .w64 => (s.word sp (2 * i)).toNat + 2 ^ 32 * (s.word sp (2 * i + 1)).toNat

/-- The stream length bound of rule R166. -/
def streamBound (W : Width) (p : Preset) (n : Nat) : Nat :=
  1 + blockCount p n * (1 + widthWords W + 4 * widthBits W) + ceilDiv (tailCount p n * vbMax W) 4

end Sys2Proof.Machine
end

