-- ==== Sys2Proof/Certificates/Slice0/Obligations.lean ====
section
/-! DEFINITION. The statements about the IDFOR-PV unit, one `Prop` each, in the order of OBLIGATIONS.json. -/

open Sys2Proof Sys2Proof.Machine

/-! ### Reset, stepping, encoding -/

/-- Rule R39: after reset every register is 0, and every buffer word holds the (free) value of the reset, whatever it is. That
such a word is the free value of event 0 is the model's choice (log entry 5). -/
def Obligations.ResetStateIsAsTabled : Prop :=
  (∀ k, k < 16 → State.reset.regRead k = .value 0) ∧
  State.reset.status = 0 ∧ State.reset.codecSel = 0 ∧ State.reset.nElems = 0 ∧ State.reset.encCap = 0 ∧
  State.reset.encLen = 0 ∧ State.reset.px = 0 ∧ State.reset.py = 0 ∧ State.reset.pz = 0 ∧ State.reset.cr = 0 ∧
  State.reset.cg = 0 ∧ State.reset.cb = 0 ∧ State.reset.pkLo = 0 ∧ State.reset.pkHi = 0 ∧
  ∀ sp i, State.reset.word sp i = Config.freeWord 0 sp i

/-- Rule R230: `Reset` cannot fail; after it every register is 0 and every buffer word holds a free value of this very reset. The
sizes stay, and the pending transactions but for this one (log entries 4 and 15). -/
def Obligations.ResetTransactionResetsTheUnit : Prop :=
  ∀ (s : State) (ts : List Txn), s.program = .reset :: ts →
    ∃ t, step s = .next t ∧ (∀ k, k < 16 → t.regRead k = .value 0) ∧
      (∀ sp i, t.word sp i = Config.freeWord s.freeNext sp i) ∧
      t = { State.reset with
        ibuf := t.ibuf, obuf := t.obuf, params := s.params, freeNext := s.freeNext + 1, program := ts,
        response := some .done }

/-- Rule R20: with no transaction in progress no state changes. That an idle step answers a state is the model's choice (log
entry 8). -/
def Obligations.IdleUnitKeepsItsState : Prop :=
  ∀ s : State, s.program = [] → step s = .next s

/-- Rules R25 and R86: a write of a word to `CMD` runs that word on the state without this transaction, and is then done; where the
word decodes to a command, it is that command that is executed. The list of transactions and the response are the model's own (log
entries 1 and 2). -/
def Obligations.StepRunsTheDecodedCommand : Prop :=
  ∀ (s : State) (cw : Word) (ts : List Txn), s.program = .regWrite 0 cw :: ts →
    step s = answering .done (runCommand cw (s.withProgram ts)) ∧
    ∀ i, decode cw = .ok i → i.wf = true →
      step s = answering .done (exec i (s.withProgram ts)) ∧
      ∀ t, exec i (s.withProgram ts) = .next t → step s = .next (t.withResponse .done)

/-- Rules R30 and R209: every transaction is followed by the next one of the list, whatever its outcome; no step faults or is
refused. The list, the response, and `BusErr` as a response are the model's choices (log entries 1, 2, 3). -/
def Obligations.EveryTransactionAdvancesTheProgram : Prop :=
  ∀ (s : State) (t : Txn) (ts : List Txn), s.program = t :: ts →
    ∃ u, step s = .next u ∧ u.program = ts ∧ u.params = s.params ∧ u.response ≠ none

/-- Rules R81 to R85: a word decodes to a command exactly when it is that command's word. -/
def Obligations.DecodeAndEncodeAgree : Prop :=
  (∀ i : Instr, i.wf = true → decode (encode i) = .ok i) ∧ ∀ (cw : Word) (i : Instr), decode cw = .ok i ↔ cw = encode i

/-- Rule R86: the three tests of the decoder accept exactly the words that match a row of the table of rule R85. -/
def Obligations.DecoderAcceptsExactlyTheTable : Prop :=
  ∀ cw : Word, (∃ i, decode cw = .ok i) ↔ ∃ r ∈ opcodeTable, cw &&& r.mask = r.pattern

/-- Words written out from the table of rule R85. -/
def Obligations.TableWordsDecode : Prop :=
  decode 0x00000000 = .ok .nop ∧ decode 0x01000002 = .ok (.setcodec 2) ∧ decode 0x10000000 = .ok .enc32 ∧
  decode 0x11000000 = .ok .enc64 ∧ decode 0x12000000 = .ok .dec32 ∧ decode 0x13000000 = .ok .dec64 ∧
  decode 0x20000000 = .ok .pack64 ∧ decode 0x21000000 = .ok .pack32 ∧ decode 0x22000000 = .ok .unpack64 ∧
  decode 0x23000000 = .ok .unpack32

/-- Rule R87: a word that matches no row executes nothing: only `STATUS` changes, to 0x301; there are 4,294,967,031 such words. -/
def Obligations.IllegalWordsChangeOnlyStatus : Prop :=
  (∀ (s : State) (cw : Word), (∀ r ∈ opcodeTable, cw &&& r.mask ≠ r.pattern) →
    runCommand cw s = .next { s with status := 0x301 }) ∧
  ∃ ill : Finset Word, ill.card = 4294967031 ∧ ∀ cw, cw ∈ ill ↔ ∀ r ∈ opcodeTable, cw &&& r.mask ≠ r.pattern

/-! ### Errors and status -/

/-- Rules R27 and R201: the status word of every code. -/
def Obligations.StatusWordsAreAsTabled : Prop :=
  statusWord .ok = 0x000 ∧ statusWord .illegalCmd = 0x301 ∧ statusWord .selector = 0x102 ∧ statusWord .range = 0x103 ∧
  statusWord .blocklen = 0x104 ∧ statusWord .capacity = 0x105 ∧ statusWord .truncated = 0x106 ∧ statusWord .header = 0x107 ∧
  statusWord .descriptor = 0x108 ∧ statusWord .varbyte = 0x109 ∧ statusWord .count = 0x20A ∧ statusWord .length = 0x20B ∧
  ∀ c, statusCode (statusWord c) = BitVec.ofNat 8 c.code ∧ statusClass (statusWord c) = BitVec.ofNat 2 c.cls

/-- Rule R26: what a command leaves does not depend on the `STATUS` before it, and no transaction but a command or a reset changes
`STATUS`. That the two runs also agree on the words of OBUF which rule R204 leaves unspecified is the model's choice (log
entry 12). -/
def Obligations.StatusDescribesTheLatestCommand : Prop :=
  (∀ (cw v : Word) (s : State), runCommand cw (s.withStatus v) = runCommand cw s) ∧
  ∀ (s u : State) (t : Txn) (ts : List Txn), s.program = t :: ts → (∀ v, t ≠ .regWrite 0 v) → t ≠ .reset →
    step s = .next u → u.status = s.status

/-- Rules R5, R27, R36: every step keeps the invariant: sizes as rule R5 allows, both buffers in canonical form, `STATUS` one of
the twelve values. The canonical form is the model's choice (log entry 7). -/
def Obligations.EveryStepKeepsTheInvariant : Prop :=
  ∀ s t : State, s.inv = true → step s = .next t → t.inv = true

/-- The invariant holds right after reset. -/
def Obligations.ResetMeetsTheInvariant : Prop := State.reset.inv = true

/-! ### System commands -/

/-- Rule R101: NOP writes `STATUS` and nothing else; its word is 0, and a word with opcode 0 and any other bit set is illegal. -/
def Obligations.NopOnlyClearsStatus : Prop :=
  (∀ s : State, exec .nop s = .next { s with status := 0 }) ∧ decode 0x00000000 = .ok .nop ∧
  ∀ cw : Word, cw.extractLsb' 24 8 = 0 → cw ≠ 0 → ∀ i, decode cw ≠ .ok i

/-- Rule R102: SETCODEC with 0..3 selects the preset; with 4..255 it fails with `E_SELECTOR` and keeps the selector; its word is
`0x01000000 + imm8`. -/
def Obligations.SetcodecSelectsOrFails : Prop :=
  ∀ (imm8 : Byte) (s : State),
    decode (BitVec.ofNat 32 (0x01000000 + imm8.toNat)) = .ok (.setcodec imm8) ∧
    exec (.setcodec imm8) s =
      if imm8.toNat ≤ 3 then .next { s with codecSel := BitVec.ofNat 2 imm8.toNat, status := 0 }
      else .next { s with status := 0x102 }

/-- Rule R28: `CODEC_SEL` changes only by a successful SETCODEC (or a reset). -/
def Obligations.OnlySetcodecChangesTheSelector : Prop :=
  ∀ s t : State, step s = .next t → t.codecSel ≠ s.codecSel →
    (∃ (imm8 : Byte) (ts : List Txn), s.program = .regWrite 0 (encode (.setcodec imm8)) :: ts ∧ imm8.toNat ≤ 3 ∧
      t.codecSel.toNat = imm8.toNat ∧ t.status = 0) ∨
    ∃ ts, s.program = .reset :: ts

/-! ### Voxel commands -/

/-- Rule R113: the field is the same whether the position is read as signed or as unsigned, and out-of-range values are cut. -/
def Obligations.BiasedFieldIsCutByMasking : Prop :=
  ∀ (p : Half) (B w : Nat), w ≤ 16 →
    (voxelField p B w : Int) = (p.toInt + B) % 2 ^ w ∧ voxelField p B w = (p.toNat + B) % 2 ^ w

/-- Rules R114, R115, R116: PACK64 and PACK32 write the packed word, of 64 bits, to `PK_HI:PK_LO`, and `STATUS`; nothing else
changes and no input fails. -/
def Obligations.PackWritesThePackedWord : Prop :=
  ∀ (i : Instr) (s : State) (ux uy uz P : Nat), i = .pack64 ∨ i = .pack32 →
    (ux : Int) = (s.px.toInt + 4096) % 2 ^ 13 → (uy : Int) = (s.py.toInt + 4096) % 2 ^ 13 →
    (uz : Int) = (s.pz.toInt + 0) % 2 ^ 14 →
    P = ux + 2 ^ 13 * uy + 2 ^ 26 * uz + 2 ^ 40 * s.cr.toNat + 2 ^ 48 * s.cg.toNat + 2 ^ 56 * s.cb.toNat →
    P < 2 ^ 64 ∧
    exec i s = .next { s with pkLo := BitVec.ofNat 32 (P % 2 ^ 32), pkHi := BitVec.ofNat 32 (P / 2 ^ 32), status := 0 }

/-- Rule R119: the two words of the pair, with `z` straddling them. -/
def Obligations.PackedPairStraddlesZ : Prop :=
  ∀ (i : Instr) (s : State), i = .pack64 ∨ i = .pack32 →
    ∃ t, exec i s = .next t ∧
      t.pkLo.toNat = voxelField s.px 4096 13 + 2 ^ 13 * voxelField s.py 4096 13 + 2 ^ 26 * (voxelField s.pz 0 14 % 2 ^ 6) ∧
      t.pkHi.toNat = voxelField s.pz 0 14 / 2 ^ 6 + 2 ^ 8 * s.cr.toNat + 2 ^ 16 * s.cg.toNat + 2 ^ 24 * s.cb.toNat

/-- Rules R117, R118: UNPACK64 and UNPACK32 write the six operand registers and `STATUS` from any packed word; nothing else
changes. -/
def Obligations.UnpackWritesTheVoxel : Prop :=
  ∀ (i : Instr) (s : State) (P : Nat), i = .unpack64 ∨ i = .unpack32 → P = s.pkLo.toNat + 2 ^ 32 * s.pkHi.toNat →
    exec i s = .next { s with
      px := BitVec.ofInt 16 ((P % 2 ^ 13 : Nat) - 4096)
      py := BitVec.ofInt 16 ((P / 2 ^ 13 % 2 ^ 13 : Nat) - 4096)
      pz := BitVec.ofNat 16 (P / 2 ^ 26 % 2 ^ 14)
      cr := BitVec.ofNat 8 (P / 2 ^ 40 % 2 ^ 8)
      cg := BitVec.ofNat 8 (P / 2 ^ 48 % 2 ^ 8)
      cb := BitVec.ofNat 8 (P / 2 ^ 56)
      status := 0 }

/-- Rule R120: on the representable ranges, pack then unpack gives the voxel back, by every combination of the variants. -/
def Obligations.UnpackInvertsPack : Prop :=
  ∀ (i j : Instr) (s : State), i = .pack64 ∨ i = .pack32 → j = .unpack64 ∨ j = .unpack32 →
    -4096 ≤ s.px.toInt → s.px.toInt ≤ 4095 → -4096 ≤ s.py.toInt → s.py.toInt ≤ 4095 →
    0 ≤ s.pz.toInt → s.pz.toInt ≤ 16383 →
    ∃ t u, exec i s = .next t ∧ exec j t = .next u ∧ SameVoxel s u

/-- Rule R121: unpack then pack leaves the packed word unchanged, for all `2^64` words. -/
def Obligations.PackInvertsUnpack : Prop :=
  ∀ (i j : Instr) (s : State), i = .unpack64 ∨ i = .unpack32 → j = .pack64 ∨ j = .pack32 →
    ∃ t u, exec i s = .next t ∧ exec j t = .next u ∧ u.pkLo = s.pkLo ∧ u.pkHi = s.pkHi

/-- Rule R122: outside its range a component comes back reduced into the range; the colours come back as they were. -/
def Obligations.OutOfRangeComponentsWrap : Prop :=
  ∀ (i j : Instr) (s : State), i = .pack64 ∨ i = .pack32 → j = .unpack64 ∨ j = .unpack32 →
    ∃ t u, exec i s = .next t ∧ exec j t = .next u ∧
      u.px.toInt = (s.px.toInt + 4096) % 8192 - 4096 ∧ u.py.toInt = (s.py.toInt + 4096) % 8192 - 4096 ∧
      u.pz.toInt = s.pz.toInt % 16384 ∧ u.cr = s.cr ∧ u.cg = s.cg ∧ u.cb = s.cb

/-- Rule R123: the lanes do not interact: each field of the packed word depends on one input register. -/
def Obligations.PackLanesDoNotInteract : Prop :=
  ∀ (i : Instr) (s s' t t' : State), i = .pack64 ∨ i = .pack32 → exec i s = .next t → exec i s' = .next t' →
    (s.px = s'.px → t.packed % 2 ^ 13 = t'.packed % 2 ^ 13) ∧
    (s.py = s'.py → t.packed / 2 ^ 13 % 2 ^ 13 = t'.packed / 2 ^ 13 % 2 ^ 13) ∧
    (s.pz = s'.pz → t.packed / 2 ^ 26 % 2 ^ 14 = t'.packed / 2 ^ 26 % 2 ^ 14) ∧
    (s.cr = s'.cr → t.packed / 2 ^ 40 % 2 ^ 8 = t'.packed / 2 ^ 40 % 2 ^ 8) ∧
    (s.cg = s'.cg → t.packed / 2 ^ 48 % 2 ^ 8 = t'.packed / 2 ^ 48 % 2 ^ 8) ∧
    (s.cb = s'.cb → t.packed / 2 ^ 56 = t'.packed / 2 ^ 56)

/-! ### Host transactions -/

/-- Rule R24: what reading each register returns, and that a read changes nothing of the unit. The list and the response are the
model's own (log entries 1 and 2). -/
def Obligations.RegReadReturnsTheRegister : Prop :=
  (∀ (s : State) (k : Nat) (ts : List Txn), s.program = .regRead k :: ts →
    step s = .next { s with program := ts, response := some (s.regRead k) }) ∧
  ∀ s : State,
    s.regRead 0 = .value 0 ∧ s.regRead 1 = .value s.status ∧ s.regRead 2 = .value (BitVec.ofNat 32 s.codecSel.toNat) ∧
    s.regRead 3 = .value s.nElems ∧ s.regRead 4 = .value s.encCap ∧ s.regRead 5 = .value s.encLen ∧
    s.regRead 6 = .value 0 ∧ s.regRead 7 = .value 0 ∧
    s.regRead 8 = .value (BitVec.ofInt 32 s.px.toInt) ∧ s.regRead 9 = .value (BitVec.ofInt 32 s.py.toInt) ∧
    s.regRead 10 = .value (BitVec.ofInt 32 s.pz.toInt) ∧ s.regRead 11 = .value (BitVec.ofNat 32 s.cr.toNat) ∧
    s.regRead 12 = .value (BitVec.ofNat 32 s.cg.toNat) ∧ s.regRead 13 = .value (BitVec.ofNat 32 s.cb.toNat) ∧
    s.regRead 14 = .value s.pkLo ∧ s.regRead 15 = .value s.pkHi

/-- Rule R23: writing a read-write register stores the low bits of the value and changes nothing else. The list and the response
are the model's own (log entries 1 and 2). -/
def Obligations.RegWriteKeepsTheLowBits : Prop :=
  ∀ (s : State) (v : Word) (ts : List Txn),
    (s.program = .regWrite 3 v :: ts → step s = .next { s with nElems := v, program := ts, response := some .done }) ∧
    (s.program = .regWrite 4 v :: ts → step s = .next { s with encCap := v, program := ts, response := some .done }) ∧
    (s.program = .regWrite 5 v :: ts → step s = .next { s with encLen := v, program := ts, response := some .done }) ∧
    (s.program = .regWrite 8 v :: ts →
      step s = .next { s with px := BitVec.ofNat 16 v.toNat, program := ts, response := some .done }) ∧
    (s.program = .regWrite 9 v :: ts →
      step s = .next { s with py := BitVec.ofNat 16 v.toNat, program := ts, response := some .done }) ∧
    (s.program = .regWrite 10 v :: ts →
      step s = .next { s with pz := BitVec.ofNat 16 v.toNat, program := ts, response := some .done }) ∧
    (s.program = .regWrite 11 v :: ts →
      step s = .next { s with cr := BitVec.ofNat 8 v.toNat, program := ts, response := some .done }) ∧
    (s.program = .regWrite 12 v :: ts →
      step s = .next { s with cg := BitVec.ofNat 8 v.toNat, program := ts, response := some .done }) ∧
    (s.program = .regWrite 13 v :: ts →
      step s = .next { s with cb := BitVec.ofNat 8 v.toNat, program := ts, response := some .done }) ∧
    (s.program = .regWrite 14 v :: ts → step s = .next { s with pkLo := v, program := ts, response := some .done }) ∧
    (s.program = .regWrite 15 v :: ts → step s = .next { s with pkHi := v, program := ts, response := some .done })

/-- Rules R22, R26, R28: writes to `STATUS`, `CODEC_SEL` and the reserved numbers 6 and 7 are done and change nothing. The list
and the response are the model's own (log entries 1 and 2). -/
def Obligations.ReadOnlyAndReservedIgnoreWrites : Prop :=
  ∀ (s : State) (k : Nat) (v : Word) (ts : List Txn), k = 1 ∨ k = 2 ∨ k = 6 ∨ k = 7 → s.program = .regWrite k v :: ts →
    step s = .next { s with program := ts, response := some .done }

/-- Rule R57: `BufRead` returns the word and changes no state of the unit. The list and the response are the model's own (log
entries 1 and 2). -/
def Obligations.BufReadReturnsTheWord : Prop :=
  ∀ (s : State) (sp : Space) (i : Nat) (ts : List Txn), s.program = .bufRead sp i :: ts → i < s.params.size sp →
    step s = .next { s with program := ts, response := some (.value (s.word sp i)) }

/-- Rule R58: `BufWrite` sets the word and changes nothing else. The list and the response are the model's own (log entries 1
and 2). -/
def Obligations.BufWriteSetsOneWord : Prop :=
  ∀ (s : State) (sp : Space) (i : Nat) (v : Word) (ts : List Txn), s.program = .bufWrite sp i v :: ts → i < s.params.size sp →
    ∃ t, step s = .next t ∧ t.word sp i = v ∧ (∀ sp' k, ¬ (sp' = sp ∧ k = i) → t.word sp' k = s.word sp' k) ∧
      t = { s with ibuf := t.ibuf, obuf := t.obuf, program := ts, response := some .done }

/-- Rule R59: a transaction that names no register number below 16 or no word of a buffer returns `BusErr`, changes no state of
the unit, not even `STATUS`, and executes no command. That the step goes on with `BusErr` as its response is the model's choice
(log entry 3). -/
def Obligations.BusErrChangesNothing : Prop :=
  ∀ (s : State) (ts : List Txn),
    (∀ k, 16 ≤ k → s.program = .regRead k :: ts → step s = .next { s with program := ts, response := some .busErr }) ∧
    (∀ k v, 16 ≤ k → s.program = .regWrite k v :: ts → step s = .next { s with program := ts, response := some .busErr }) ∧
    (∀ sp i, s.params.size sp ≤ i → s.program = .bufRead sp i :: ts →
      step s = .next { s with program := ts, response := some .busErr }) ∧
    (∀ sp i v, s.params.size sp ≤ i → s.program = .bufWrite sp i v :: ts →
      step s = .next { s with program := ts, response := some .busErr })

/-- Rule R60: executing the same command word twice in succession leaves what executing it once leaves: wholly after a success, and
after every word, failing or not, that is none of the four codec commands; after a failing codec command the exceptions are the
words of OBUF in its unspecified region (rule R204) and the counter of the free values, the model's own (log entries 6 and 12). -/
def Obligations.CommandTwiceIsCommandOnce : Prop :=
  ∀ (cw : Word) (s t : State), runCommand cw s = .next t →
    ∃ u, runCommand cw t = .next u ∧ (t.status = 0 → u = t) ∧ u = { t with obuf := u.obuf, freeNext := u.freeNext } ∧
      ((∀ W, decode cw ≠ .ok (encInstr W) ∧ decode cw ≠ .ok (decInstr W)) → u = t) ∧
      (∀ W, decode cw = .ok (encInstr W) → ∀ k, s.encRegion ≤ k → u.word .obuf k = t.word .obuf k) ∧
      ∀ W, decode cw = .ok (decInstr W) → ∀ k, s.decRegion (widthWords W) ≤ k → u.word .obuf k = t.word .obuf k

/-- Rules R50, R53: a stream of words stored as bytes has four bytes a word, byte `4k + j` holding bits `8j+7 : 8j` of word `k`, and is
loaded back; a byte count that is not a multiple of 4 is no stream. -/
def Obligations.StreamBytesAreLittleEndian : Prop :=
  ∀ (ws : List Word) (bs : List Byte),
    (streamBytes ws).length = 4 * ws.length ∧ streamOfBytes (streamBytes ws) = some ws ∧
    (∀ k j, k < ws.length → j < 4 →
      ((streamBytes ws).getD (4 * k + j) 0).toNat = (ws.getD k 0).toNat / 2 ^ (8 * j) % 2 ^ 8) ∧
    (streamOfBytes bs = none ↔ bs.length % 4 ≠ 0)

/-! ### Codec commands -/

/-- Rules R171, R172, R174: when its checks pass, ENC32 or ENC64 writes the stream of the elements of IBUF to OBUF from index 0 on and
its length to `ENC_LEN`; nothing else changes. The first word of a non-empty array's stream is the header of rule R134, which holds
`CODEC_SEL`. -/
def Obligations.EncodeWritesTheStream : Prop :=
  ∀ (W : Width) (s : State) (xs : List Nat) (S : List Word),
    s.nElems.toNat ≤ 2 ^ 28 - 1 → widthWords W * s.nElems.toNat ≤ s.params.ibufWords →
    s.nElems.toNat % (if s.codecSel = 2 then 128 else 1) = 0 →
    xs.length = s.nElems.toNat → (∀ k, k < s.nElems.toNat → xs.getD k 0 = s.element W .ibuf k) →
    S = encodeStream W (presetOf s.codecSel) xs → S.length ≤ s.encCap.toNat → S.length ≤ s.params.obufWords →
    ∃ t, exec (encInstr W) s = .next t ∧ t.encLen.toNat = S.length ∧
      (0 < s.nElems.toNat →
        (S.getD 0 0).toNat = s.nElems.toNat + 2 ^ 28 * s.codecSel.toNat + 2 ^ 30 * (if W = .w64 then 1 else 0)) ∧
      (∀ k, k < S.length → t.word .obuf k = S.getD k 0) ∧ (∀ k, S.length ≤ k → t.word .obuf k = s.word .obuf k) ∧
      t = { s with status := 0, encLen := t.encLen, obuf := t.obuf }

/-- Rules R172, R204, R208: the first failing check of ENC32 or ENC64 decides the code; `ENC_LEN` becomes 0, the words of OBUF
at and beyond `min(ENC_CAP, OBUF_WORDS)` stay, and nothing else changes. The counter `freeNext` of the free values is the
model's own (log entry 6). -/
def Obligations.EncodeFailsByTheFirstCheck : Prop :=
  ∀ (W : Width) (s : State) (xs : List Nat) (c : Word),
    xs.length = s.nElems.toNat → (∀ k, k < s.nElems.toNat → xs.getD k 0 = s.element W .ibuf k) →
    c = (if 2 ^ 28 - 1 < s.nElems.toNat ∨ s.params.ibufWords < widthWords W * s.nElems.toNat then 0x103
      else if s.nElems.toNat % (if s.codecSel = 2 then 128 else 1) ≠ 0 then 0x104
      else if s.encCap.toNat < (encodeStream W (presetOf s.codecSel) xs).length ∨
        s.params.obufWords < (encodeStream W (presetOf s.codecSel) xs).length then 0x105
      else 0) →
    c ≠ 0 →
    ∃ t, exec (encInstr W) s = .next t ∧
      (∀ k, min s.encCap.toNat s.params.obufWords ≤ k → t.word .obuf k = s.word .obuf k) ∧
      t = { s with status := c, encLen := 0, obuf := t.obuf, freeNext := t.freeNext }

/-- Rules R177, R178, R180: when its checks pass and the stream decodes, DEC32 or DEC64 writes the elements to OBUF from index 0 on;
nothing else changes. -/
def Obligations.DecodeWritesTheElements : Prop :=
  ∀ (W : Width) (s : State) (ws : List Word) (xs : List Nat),
    s.nElems.toNat ≤ 2 ^ 28 - 1 → s.encLen.toNat ≤ s.params.ibufWords →
    s.nElems.toNat % (if s.codecSel = 2 then 128 else 1) = 0 → widthWords W * s.nElems.toNat ≤ s.params.obufWords →
    ws.length = s.encLen.toNat → (∀ k, k < s.encLen.toNat → ws.getD k 0 = s.word .ibuf k) →
    decodeStream W (presetOf s.codecSel) s.nElems.toNat ws = .ok xs →
    ∃ t, exec (decInstr W) s = .next t ∧ xs.length = s.nElems.toNat ∧
      (∀ k, k < s.nElems.toNat → t.element W .obuf k = xs.getD k 0) ∧
      (∀ k, widthWords W * s.nElems.toNat ≤ k → t.word .obuf k = s.word .obuf k) ∧
      t = { s with status := 0, obuf := t.obuf }

/-- Rules R178, R204, R208: the first failing check of DEC32 or DEC64, or else the stream's error, decides the code; the words
of OBUF at and beyond `min(K·N_ELEMS, OBUF_WORDS)` stay, and nothing else changes. The counter `freeNext` of the free values is
the model's own (log entry 6). -/
def Obligations.DecodeFailsByTheFirstCheck : Prop :=
  ∀ (W : Width) (s : State) (ws : List Word) (c : Word),
    ws.length = s.encLen.toNat → (∀ k, k < s.encLen.toNat → ws.getD k 0 = s.word .ibuf k) →
    c = (if 2 ^ 28 - 1 < s.nElems.toNat ∨ s.params.ibufWords < s.encLen.toNat then 0x103
      else if s.nElems.toNat % (if s.codecSel = 2 then 128 else 1) ≠ 0 then 0x104
      else if s.params.obufWords < widthWords W * s.nElems.toNat then 0x105
      else match decodeStream W (presetOf s.codecSel) s.nElems.toNat ws with
        | .error e => statusWord e
        | .ok _ => 0) →
    c ≠ 0 →
    ∃ t, exec (decInstr W) s = .next t ∧
      (∀ k, min (widthWords W * s.nElems.toNat) s.params.obufWords ≤ k → t.word .obuf k = s.word .obuf k) ∧
      t = { s with status := c, obuf := t.obuf, freeNext := t.freeNext }

/-- Rule R186: `STATUS = 0` and `ENC_LEN = 0` after an ENC command happens exactly for `N_ELEMS = 0`; with elements, `ENC_LEN = 0` says that the
command failed. -/
def Obligations.ZeroLengthMeansEmptyOrFailed : Prop :=
  ∀ (W : Width) (s : State), ∃ t, exec (encInstr W) s = .next t ∧
    ((t.status = 0 ∧ t.encLen = 0) ↔ s.nElems = 0) ∧ (s.nElems ≠ 0 → (t.encLen = 0 ↔ t.status ≠ 0))

/-- Rule R185: encode, copy the stream to IBUF, decode: OBUF holds the original array. -/
def Obligations.UnitRoundTrip : Prop :=
  ∀ (W : Width) (s t u : State),
    streamBound W (presetOf s.codecSel) s.nElems.toNat ≤ s.encCap.toNat → s.encCap.toNat ≤ s.params.obufWords →
    exec (encInstr W) s = .next t → t.status = 0 → t.encLen.toNat ≤ t.params.ibufWords →
    u.params = t.params → u.nElems = t.nElems → u.encLen = t.encLen → u.codecSel = t.codecSel →
    (∀ k, k < t.encLen.toNat → u.word .ibuf k = t.word .obuf k) →
    ∃ v, exec (decInstr W) u = .next v ∧ v.status = 0 ∧
      ∀ k, k < s.nElems.toNat → v.element W .obuf k = s.element W .ibuf k

/-- Rules R37, R40: what a command leaves in the places it writes depends on the places it reads alone. -/
def Obligations.ResultsDependOnInputsAlone : Prop :=
  ∀ (i : Instr) (s s' t t' : State), SameInputs i s s' → exec i s = .next t → exec i s' = .next t' → SameResults i t t'

/-- Rule R36: no command writes IBUF, and no command reads OBUF: with another OBUF a command leaves the same outside OBUF, and each
word of OBUF is afterwards the same as well or else in each the word that stood there before. That two runs also agree on words
which rule R204 leaves unspecified is the model's choice (log entry 12). -/
def Obligations.CommandsReadIbufAndWriteObuf : Prop :=
  ∀ (i : Instr) (s t : State) (m : Memory), exec i s = .next t →
    t.ibuf = s.ibuf ∧ ∃ t', exec i (s.withObuf m) = .next t' ∧ t' = t.withObuf t'.obuf ∧
      ∀ k, t'.word .obuf k = t.word .obuf k ∨
        (t.word .obuf k = s.word .obuf k ∧ t'.word .obuf k = (s.withObuf m).word .obuf k)

/-- Rules R153, R178: the decoder never reads `IBUF[i]` for `i ≥ ENC_LEN`: another content there changes nothing.
That two failing runs also agree on the words of OBUF which rule R204 leaves unspecified is the model's choice (log entry 12). -/
def Obligations.DecoderReadsOnlyTheStream : Prop :=
  ∀ (W : Width) (s s' t t' : State), s' = s.withIbuf s'.ibuf → SameWords .ibuf s.encLen.toNat s s' →
    exec (decInstr W) s = .next t → exec (decInstr W) s' = .next t' → t' = t.withIbuf s'.ibuf

/-- Rules R91, R183: ENCP32 or ENCP64, up to its command: the padding words of IBUF are zero, every other word stays, the padded
count is a multiple of 128 in `N_ELEMS`, accepted by every preset, and the command is all that is left. The list and the
response are the model's own (log entries 1 and 2). -/
def Obligations.PaddedEncodePreparesTheInput : Prop :=
  ∀ (W : Width) (n : Nat) (s : State), paddedCount n < 2 ^ 32 → widthWords W * paddedCount n ≤ s.params.ibufWords →
    ∃ u : State,
      Sys2Proof.core.run ((expandLine (.encp W n)).length - 1) (s.withProgram (expandLine (.encp W n))) = .next u ∧
      u.program = [.regWrite 0 (encode (encInstr W))] ∧ u.nElems.toNat = paddedCount n ∧
      n ≤ paddedCount n ∧ paddedCount n < n + 128 ∧ (∀ p, paddedCount n % blockReq p = 0) ∧
      (∀ k, u.word .ibuf k = if widthWords W * n ≤ k ∧ k < widthWords W * paddedCount n then 0 else s.word .ibuf k) ∧
      u = { s with nElems := u.nElems, ibuf := u.ibuf, program := u.program, response := some .done }

/-! ### The stream format -/

/-- Rule R133: `packbits` puts bit `j` of value `i` at bit `i·w + j` of the words, and zeros after; `unpackbits` takes the values from those
bits of any words and from no others, and gives the packed values back. -/
def Obligations.PackbitsLayout : Prop :=
  ∀ (vs : List Nat) (us : List Word) (c w : Nat), w ≤ 64 → (∀ v ∈ vs, v < 2 ^ w) →
    (packbits vs w).length = ceilDiv (vs.length * w) 32 ∧
    (∀ t, t < 32 * (packbits vs w).length →
      ((packbits vs w).getD (t / 32) 0).getLsbD (t % 32) =
        (decide (t < vs.length * w) && (vs.getD (t / w) 0).testBit (t % w))) ∧
    unpackbits (packbits vs w) vs.length w = vs ∧
    (unpackbits us c w).length = c ∧ (∀ i, i < c → (unpackbits us c w).getD i 0 < 2 ^ w) ∧
    ∀ i j, i < c → j < w →
      ((unpackbits us c w).getD i 0).testBit j = (us.getD ((i * w + j) / 32) 0).getLsbD ((i * w + j) % 32)

/-- Rule R136: the deltas of an array, wrapping modulo `2^W`, and their inverse. -/
def Obligations.DeltaStageAndItsInverse : Prop :=
  ∀ (W : Width) (xs : List Nat), (∀ x ∈ xs, x < 2 ^ widthBits W) →
    (deltas (widthBits W) 0 xs).length = xs.length ∧
    (∀ i, i < xs.length →
      (((deltas (widthBits W) 0 xs).getD i 0 : Nat) : Int) =
        ((xs.getD i 0 : Nat) - (if i = 0 then 0 else ((xs.getD (i - 1) 0 : Nat) : Int))) % 2 ^ widthBits W) ∧
    undelta (widthBits W) 0 (deltas (widthBits W) 0 xs) = xs

/-- Rule R138: the reference is the delta at the least index of the signed minimum; the values are the differences modulo `2^W` and give
the deltas back. -/
def Obligations.ReferenceIsTheSignedMinimum : Prop :=
  ∀ (W : Width) (ds : List Nat), ds ≠ [] → (∀ d ∈ ds, d < 2 ^ widthBits W) →
    (∃ j, j < ds.length ∧ reference (widthBits W) ds = ds.getD j 0 ∧
      (∀ i, i < ds.length → sint (widthBits W) (ds.getD j 0) ≤ sint (widthBits W) (ds.getD i 0)) ∧
      (∀ i, i < j → sint (widthBits W) (ds.getD j 0) < sint (widthBits W) (ds.getD i 0)) ∧
      (offsets (widthBits W) ds).getD j 1 = 0) ∧
    (offsets (widthBits W) ds).map (fun v => addMod (widthBits W) v (reference (widthBits W) ds)) = ds

/-- Rule R139: `mb` is the bit length of the greatest value, at most `W`, and 0 exactly when all deltas of the block are equal. -/
def Obligations.MaxWidthOfABlock : Prop :=
  ∀ (W : Width) (ds : List Nat) (mb : Nat), ds ≠ [] → (∀ d ∈ ds, d < 2 ^ widthBits W) →
    mb = maxWidth (offsets (widthBits W) ds) →
    (∀ v ∈ offsets (widthBits W) ds, v < 2 ^ mb) ∧
    (∀ k, (∀ v ∈ offsets (widthBits W) ds, v < 2 ^ k) → mb ≤ k) ∧ mb ≤ widthBits W ∧
    (mb = 0 ↔ ∀ d ∈ ds, ∀ d' ∈ ds, d = d')

/-- Rule R140: an unpatched preset takes `b = mb`; a patched one takes the largest of the candidates of least cost; the cost of `mb`
itself is `4·mb`. -/
def Obligations.PackedWidthIsTheLargestCheapest : Prop :=
  ∀ (vs : List Nat) (mb : Nat),
    packedWidth false vs mb = mb ∧ packedWidth true vs mb ≤ mb ∧
    (∀ c, c ≤ mb →
      cost vs mb (packedWidth true vs mb) ≤ cost vs mb c ∧
      (cost vs mb c = cost vs mb (packedWidth true vs mb) → c ≤ packedWidth true vs mb)) ∧
    (mb = maxWidth vs → cost vs mb mb = 4 * mb)

/-- Rules R140, R141: a block never has 128 exceptions, an exception implies `b < mb`, and an unpatched block has none. -/
def Obligations.ExceptionsOfABlock : Prop :=
  ∀ (W : Width) (isPatched : Bool) (ds : List Nat) (mb b : Nat), ds.length = 128 → (∀ d ∈ ds, d < 2 ^ widthBits W) →
    mb = maxWidth (offsets (widthBits W) ds) → b = packedWidth isPatched (offsets (widthBits W) ds) mb →
    (exceptions b 0 (offsets (widthBits W) ds)).length = excCount (offsets (widthBits W) ds) b ∧
    excCount (offsets (widthBits W) ds) b < 128 ∧ (0 < excCount (offsets (widthBits W) ds) b → b < mb) ∧
    (isPatched = false → excCount (offsets (widthBits W) ds) b = 0)

/-- Rule R145: the length of a block in words, its least and its greatest value. -/
def Obligations.BlockLengthFormula : Prop :=
  ∀ (W : Width) (isPatched : Bool) (ds : List Nat) (mb b e : Nat), ds.length = 128 → (∀ d ∈ ds, d < 2 ^ widthBits W) →
    mb = maxWidth (offsets (widthBits W) ds) → b = packedWidth isPatched (offsets (widthBits W) ds) mb →
    e = excCount (offsets (widthBits W) ds) b →
    (encodeBlock W isPatched ds).length =
      1 + widthBits W / 32 + 4 * b + (if e = 0 then 0 else ceilDiv e 4 + ceilDiv (e * (mb - b)) 32) ∧
    1 + widthBits W / 32 ≤ (encodeBlock W isPatched ds).length ∧
    (encodeBlock W isPatched ds).length ≤ 1 + widthBits W / 32 + 4 * widthBits W ∧
    ((∀ d ∈ ds, ∀ d' ∈ ds, d = d') → (encodeBlock W isPatched ds).length = 1 + widthBits W / 32)

/-- Rule R150: the variable-byte code of a delta: 7-bit groups, low first, bit 7 set on all bytes but the last, as few bytes as the
value needs, at most `VBMAX`. -/
def Obligations.VarbyteCodeIsShortest : Prop :=
  ∀ (W : Width) (d : Nat), d < 2 ^ widthBits W →
    (varbyte W d).length = max 1 (ceilDiv (bitlen d) 7) ∧ (varbyte W d).length ≤ vbMax W ∧
    (∀ k, k < (varbyte W d).length →
      (varbyte W d).getD k 0 < 256 ∧ (varbyte W d).getD k 0 % 128 = d / 2 ^ (7 * k) % 128 ∧
      (128 ≤ (varbyte W d).getD k 0 ↔ k + 1 < (varbyte W d).length))

/-- Rule R158: the bytes of the tail still to read are those left of the current word, `cur`, then those of the words `ws`. Where the
first `VBMAX − 1` of them all announce another one and the byte after them announces yet another or carries a bit beyond `W`, the
value, and with it the tail, fails with `E_VARBYTE`. -/
def Obligations.OverlongVarbyteIsRejected : Prop :=
  ∀ (W : Width) (cur : List Nat) (ws : List Word) (bs rest : List Nat) (z : Nat),
    cur ++ (streamBytes ws).map BitVec.toNat = bs ++ z :: rest → bs.length = vbMax W - 1 → (∀ b ∈ bs, 128 ≤ b) →
    128 ≤ z ∨ 2 ^ (widthBits W - 7 * (vbMax W - 1)) ≤ z →
    rdVarbyte W (vbMax W) 0 0 cur ws = .error .varbyte ∧ ∀ r, decodeTail W (r + 1) cur ws = .error .varbyte

/-- Rules R135, R154: the empty array and the empty stream. -/
def Obligations.EmptyArrayIsTheEmptyStream : Prop :=
  ∀ (W : Width) (p : Preset) (w : Word) (ws : List Word),
    encodeStream W p [] = [] ∧ decodeStream W p 0 [] = .ok [] ∧ decodeStream W p 0 (w :: ws) = .error .length

/-- Rule R155: a missing header, then the tests of the header in their order, before anything else is read. -/
def Obligations.HeaderIsTestedFirst : Prop :=
  ∀ (W : Width) (p : Preset) (n : Nat) (h : Word) (ws : List Word), 0 < n →
    decodeStream W p n [] = .error .truncated ∧
    ((h.getLsbD 31 = true ∨ (h.extractLsb' 28 2).toNat ≠ presetSel p ∨ h.getLsbD 30 ≠ decide (W = .w64)) →
      decodeStream W p n (h :: ws) = .error .header) ∧
    (h.getLsbD 31 = false ∧ (h.extractLsb' 28 2).toNat = presetSel p ∧ h.getLsbD 30 = decide (W = .w64) →
      (h.extractLsb' 0 28).toNat ≠ n → decodeStream W p n (h :: ws) = .error .count)

/-- Rule R156: an invalid descriptor is an error whatever follows it, before the reference is read. -/
def Obligations.InvalidDescriptorIsRejected : Prop :=
  ∀ (W : Width) (isPatched : Bool) (D : Word) (ws : List Word) (b mb e : Nat),
    b = (D.extractLsb' 0 7).toNat → mb = (D.extractLsb' 8 7).toNat → e = (D.extractLsb' 16 8).toNat →
    D.getLsbD 7 = true ∨ D.getLsbD 15 = true ∨ D.extractLsb' 24 8 ≠ 0 ∨ mb < b ∨ widthBits W < mb ∨ 128 < e ∨
      (0 < e ∧ b = mb) ∨ (0 < e ∧ isPatched = false) →
    decodeBlock W isPatched (D :: ws) = .error .descriptor

/-- Rules R130, R161: decoding an encoded array of an accepted length gives it back, for every preset and both widths. -/
def Obligations.DecodeInvertsEncodeStream : Prop :=
  ∀ (W : Width) (p : Preset) (xs : List Nat), xs.length ≤ 2 ^ 28 - 1 → xs.length % blockReq p = 0 →
    (∀ x ∈ xs, x < 2 ^ widthBits W) →
    decodeStream W p xs.length (encodeStream W p xs) = .ok xs

/-- Rule R166: the upper bound on the stream length, which fits 32 bits with room. -/
def Obligations.StreamLengthUpperBound : Prop :=
  ∀ (W : Width) (p : Preset) (xs : List Nat), 0 < xs.length → (∀ x ∈ xs, x < 2 ^ widthBits W) →
    (encodeStream W p xs).length ≤
      1 + blockCount p xs.length * (1 + widthBits W / 32 + 4 * widthBits W) + ceilDiv (tailCount p xs.length * vbMax W) 4 ∧
    (xs.length ≤ 2 ^ 28 - 1 →
      1 + blockCount p xs.length * (1 + widthBits W / 32 + 4 * widthBits W) +
        ceilDiv (tailCount p xs.length * vbMax W) 4 < 2 ^ 30)

/-- Rule R167: a non-empty array of an accepted length gives at least two words. -/
def Obligations.StreamLengthLowerBound : Prop :=
  ∀ (W : Width) (p : Preset) (xs : List Nat), 0 < xs.length → xs.length % blockReq p = 0 → 2 ≤ (encodeStream W p xs).length

/-- Rule R131: the four presets that `CODEC_SEL` selects: all but 3 have a block stage, 0 and 2 are patched, all but 2 have a tail
stage, and 2 alone has the block requirement 128; the selector is the one the stream header holds. -/
def Obligations.PresetsAreAsTabled : Prop :=
  ∀ sel : BitVec 2,
    (blockStage (presetOf sel) = true ↔ sel ≠ 3) ∧ (patched (presetOf sel) = true ↔ sel = 0 ∨ sel = 2) ∧
    (tailStage (presetOf sel) = true ↔ sel ≠ 2) ∧ blockReq (presetOf sel) = (if sel = 2 then 128 else 1) ∧
    presetSel (presetOf sel) = sel.toNat
end

