-- ==== Sys2Proof/Laws/State.lean ====
section
/-! SUPPORT. What each update of the state does to each field, one lemma per field per update, so that no later proof unfolds a
record update. -/

namespace Sys2Proof.Machine

variable (s : State)

/-! ### withStatus -/

@[simp] theorem State.withStatus_status (v : Word) : (s.withStatus v).status = v := rfl
@[simp] theorem State.withStatus_codecSel (v : Word) : (s.withStatus v).codecSel = s.codecSel := rfl
@[simp] theorem State.withStatus_nElems (v : Word) : (s.withStatus v).nElems = s.nElems := rfl
@[simp] theorem State.withStatus_encCap (v : Word) : (s.withStatus v).encCap = s.encCap := rfl
@[simp] theorem State.withStatus_encLen (v : Word) : (s.withStatus v).encLen = s.encLen := rfl
@[simp] theorem State.withStatus_px (v : Word) : (s.withStatus v).px = s.px := rfl
@[simp] theorem State.withStatus_py (v : Word) : (s.withStatus v).py = s.py := rfl
@[simp] theorem State.withStatus_pz (v : Word) : (s.withStatus v).pz = s.pz := rfl
@[simp] theorem State.withStatus_cr (v : Word) : (s.withStatus v).cr = s.cr := rfl
@[simp] theorem State.withStatus_cg (v : Word) : (s.withStatus v).cg = s.cg := rfl
@[simp] theorem State.withStatus_cb (v : Word) : (s.withStatus v).cb = s.cb := rfl
@[simp] theorem State.withStatus_pkLo (v : Word) : (s.withStatus v).pkLo = s.pkLo := rfl
@[simp] theorem State.withStatus_pkHi (v : Word) : (s.withStatus v).pkHi = s.pkHi := rfl
@[simp] theorem State.withStatus_ibuf (v : Word) : (s.withStatus v).ibuf = s.ibuf := rfl
@[simp] theorem State.withStatus_obuf (v : Word) : (s.withStatus v).obuf = s.obuf := rfl
@[simp] theorem State.withStatus_params (v : Word) : (s.withStatus v).params = s.params := rfl
@[simp] theorem State.withStatus_freeNext (v : Word) : (s.withStatus v).freeNext = s.freeNext := rfl
@[simp] theorem State.withStatus_program (v : Word) : (s.withStatus v).program = s.program := rfl
@[simp] theorem State.withStatus_response (v : Word) : (s.withStatus v).response = s.response := rfl

/-! ### withCodecSel -/

@[simp] theorem State.withCodecSel_status (v : BitVec 2) : (s.withCodecSel v).status = s.status := rfl
@[simp] theorem State.withCodecSel_codecSel (v : BitVec 2) : (s.withCodecSel v).codecSel = v := rfl
@[simp] theorem State.withCodecSel_nElems (v : BitVec 2) : (s.withCodecSel v).nElems = s.nElems := rfl
@[simp] theorem State.withCodecSel_encCap (v : BitVec 2) : (s.withCodecSel v).encCap = s.encCap := rfl
@[simp] theorem State.withCodecSel_encLen (v : BitVec 2) : (s.withCodecSel v).encLen = s.encLen := rfl
@[simp] theorem State.withCodecSel_px (v : BitVec 2) : (s.withCodecSel v).px = s.px := rfl
@[simp] theorem State.withCodecSel_py (v : BitVec 2) : (s.withCodecSel v).py = s.py := rfl
@[simp] theorem State.withCodecSel_pz (v : BitVec 2) : (s.withCodecSel v).pz = s.pz := rfl
@[simp] theorem State.withCodecSel_cr (v : BitVec 2) : (s.withCodecSel v).cr = s.cr := rfl
@[simp] theorem State.withCodecSel_cg (v : BitVec 2) : (s.withCodecSel v).cg = s.cg := rfl
@[simp] theorem State.withCodecSel_cb (v : BitVec 2) : (s.withCodecSel v).cb = s.cb := rfl
@[simp] theorem State.withCodecSel_pkLo (v : BitVec 2) : (s.withCodecSel v).pkLo = s.pkLo := rfl
@[simp] theorem State.withCodecSel_pkHi (v : BitVec 2) : (s.withCodecSel v).pkHi = s.pkHi := rfl
@[simp] theorem State.withCodecSel_ibuf (v : BitVec 2) : (s.withCodecSel v).ibuf = s.ibuf := rfl
@[simp] theorem State.withCodecSel_obuf (v : BitVec 2) : (s.withCodecSel v).obuf = s.obuf := rfl
@[simp] theorem State.withCodecSel_params (v : BitVec 2) : (s.withCodecSel v).params = s.params := rfl
@[simp] theorem State.withCodecSel_freeNext (v : BitVec 2) : (s.withCodecSel v).freeNext = s.freeNext := rfl
@[simp] theorem State.withCodecSel_program (v : BitVec 2) : (s.withCodecSel v).program = s.program := rfl
@[simp] theorem State.withCodecSel_response (v : BitVec 2) : (s.withCodecSel v).response = s.response := rfl

/-! ### withNElems -/

@[simp] theorem State.withNElems_status (v : Word) : (s.withNElems v).status = s.status := rfl
@[simp] theorem State.withNElems_codecSel (v : Word) : (s.withNElems v).codecSel = s.codecSel := rfl
@[simp] theorem State.withNElems_nElems (v : Word) : (s.withNElems v).nElems = v := rfl
@[simp] theorem State.withNElems_encCap (v : Word) : (s.withNElems v).encCap = s.encCap := rfl
@[simp] theorem State.withNElems_encLen (v : Word) : (s.withNElems v).encLen = s.encLen := rfl
@[simp] theorem State.withNElems_px (v : Word) : (s.withNElems v).px = s.px := rfl
@[simp] theorem State.withNElems_py (v : Word) : (s.withNElems v).py = s.py := rfl
@[simp] theorem State.withNElems_pz (v : Word) : (s.withNElems v).pz = s.pz := rfl
@[simp] theorem State.withNElems_cr (v : Word) : (s.withNElems v).cr = s.cr := rfl
@[simp] theorem State.withNElems_cg (v : Word) : (s.withNElems v).cg = s.cg := rfl
@[simp] theorem State.withNElems_cb (v : Word) : (s.withNElems v).cb = s.cb := rfl
@[simp] theorem State.withNElems_pkLo (v : Word) : (s.withNElems v).pkLo = s.pkLo := rfl
@[simp] theorem State.withNElems_pkHi (v : Word) : (s.withNElems v).pkHi = s.pkHi := rfl
@[simp] theorem State.withNElems_ibuf (v : Word) : (s.withNElems v).ibuf = s.ibuf := rfl
@[simp] theorem State.withNElems_obuf (v : Word) : (s.withNElems v).obuf = s.obuf := rfl
@[simp] theorem State.withNElems_params (v : Word) : (s.withNElems v).params = s.params := rfl
@[simp] theorem State.withNElems_freeNext (v : Word) : (s.withNElems v).freeNext = s.freeNext := rfl
@[simp] theorem State.withNElems_program (v : Word) : (s.withNElems v).program = s.program := rfl
@[simp] theorem State.withNElems_response (v : Word) : (s.withNElems v).response = s.response := rfl

/-! ### withEncCap -/

@[simp] theorem State.withEncCap_status (v : Word) : (s.withEncCap v).status = s.status := rfl
@[simp] theorem State.withEncCap_codecSel (v : Word) : (s.withEncCap v).codecSel = s.codecSel := rfl
@[simp] theorem State.withEncCap_nElems (v : Word) : (s.withEncCap v).nElems = s.nElems := rfl
@[simp] theorem State.withEncCap_encCap (v : Word) : (s.withEncCap v).encCap = v := rfl
@[simp] theorem State.withEncCap_encLen (v : Word) : (s.withEncCap v).encLen = s.encLen := rfl
@[simp] theorem State.withEncCap_px (v : Word) : (s.withEncCap v).px = s.px := rfl
@[simp] theorem State.withEncCap_py (v : Word) : (s.withEncCap v).py = s.py := rfl
@[simp] theorem State.withEncCap_pz (v : Word) : (s.withEncCap v).pz = s.pz := rfl
@[simp] theorem State.withEncCap_cr (v : Word) : (s.withEncCap v).cr = s.cr := rfl
@[simp] theorem State.withEncCap_cg (v : Word) : (s.withEncCap v).cg = s.cg := rfl
@[simp] theorem State.withEncCap_cb (v : Word) : (s.withEncCap v).cb = s.cb := rfl
@[simp] theorem State.withEncCap_pkLo (v : Word) : (s.withEncCap v).pkLo = s.pkLo := rfl
@[simp] theorem State.withEncCap_pkHi (v : Word) : (s.withEncCap v).pkHi = s.pkHi := rfl
@[simp] theorem State.withEncCap_ibuf (v : Word) : (s.withEncCap v).ibuf = s.ibuf := rfl
@[simp] theorem State.withEncCap_obuf (v : Word) : (s.withEncCap v).obuf = s.obuf := rfl
@[simp] theorem State.withEncCap_params (v : Word) : (s.withEncCap v).params = s.params := rfl
@[simp] theorem State.withEncCap_freeNext (v : Word) : (s.withEncCap v).freeNext = s.freeNext := rfl
@[simp] theorem State.withEncCap_program (v : Word) : (s.withEncCap v).program = s.program := rfl
@[simp] theorem State.withEncCap_response (v : Word) : (s.withEncCap v).response = s.response := rfl

/-! ### withEncLen -/

@[simp] theorem State.withEncLen_status (v : Word) : (s.withEncLen v).status = s.status := rfl
@[simp] theorem State.withEncLen_codecSel (v : Word) : (s.withEncLen v).codecSel = s.codecSel := rfl
@[simp] theorem State.withEncLen_nElems (v : Word) : (s.withEncLen v).nElems = s.nElems := rfl
@[simp] theorem State.withEncLen_encCap (v : Word) : (s.withEncLen v).encCap = s.encCap := rfl
@[simp] theorem State.withEncLen_encLen (v : Word) : (s.withEncLen v).encLen = v := rfl
@[simp] theorem State.withEncLen_px (v : Word) : (s.withEncLen v).px = s.px := rfl
@[simp] theorem State.withEncLen_py (v : Word) : (s.withEncLen v).py = s.py := rfl
@[simp] theorem State.withEncLen_pz (v : Word) : (s.withEncLen v).pz = s.pz := rfl
@[simp] theorem State.withEncLen_cr (v : Word) : (s.withEncLen v).cr = s.cr := rfl
@[simp] theorem State.withEncLen_cg (v : Word) : (s.withEncLen v).cg = s.cg := rfl
@[simp] theorem State.withEncLen_cb (v : Word) : (s.withEncLen v).cb = s.cb := rfl
@[simp] theorem State.withEncLen_pkLo (v : Word) : (s.withEncLen v).pkLo = s.pkLo := rfl
@[simp] theorem State.withEncLen_pkHi (v : Word) : (s.withEncLen v).pkHi = s.pkHi := rfl
@[simp] theorem State.withEncLen_ibuf (v : Word) : (s.withEncLen v).ibuf = s.ibuf := rfl
@[simp] theorem State.withEncLen_obuf (v : Word) : (s.withEncLen v).obuf = s.obuf := rfl
@[simp] theorem State.withEncLen_params (v : Word) : (s.withEncLen v).params = s.params := rfl
@[simp] theorem State.withEncLen_freeNext (v : Word) : (s.withEncLen v).freeNext = s.freeNext := rfl
@[simp] theorem State.withEncLen_program (v : Word) : (s.withEncLen v).program = s.program := rfl
@[simp] theorem State.withEncLen_response (v : Word) : (s.withEncLen v).response = s.response := rfl

/-! ### withPosition -/

@[simp] theorem State.withPosition_status (x y z : Half) : (s.withPosition x y z).status = s.status := rfl
@[simp] theorem State.withPosition_codecSel (x y z : Half) : (s.withPosition x y z).codecSel = s.codecSel := rfl
@[simp] theorem State.withPosition_nElems (x y z : Half) : (s.withPosition x y z).nElems = s.nElems := rfl
@[simp] theorem State.withPosition_encCap (x y z : Half) : (s.withPosition x y z).encCap = s.encCap := rfl
@[simp] theorem State.withPosition_encLen (x y z : Half) : (s.withPosition x y z).encLen = s.encLen := rfl
@[simp] theorem State.withPosition_px (x y z : Half) : (s.withPosition x y z).px = x := rfl
@[simp] theorem State.withPosition_py (x y z : Half) : (s.withPosition x y z).py = y := rfl
@[simp] theorem State.withPosition_pz (x y z : Half) : (s.withPosition x y z).pz = z := rfl
@[simp] theorem State.withPosition_cr (x y z : Half) : (s.withPosition x y z).cr = s.cr := rfl
@[simp] theorem State.withPosition_cg (x y z : Half) : (s.withPosition x y z).cg = s.cg := rfl
@[simp] theorem State.withPosition_cb (x y z : Half) : (s.withPosition x y z).cb = s.cb := rfl
@[simp] theorem State.withPosition_pkLo (x y z : Half) : (s.withPosition x y z).pkLo = s.pkLo := rfl
@[simp] theorem State.withPosition_pkHi (x y z : Half) : (s.withPosition x y z).pkHi = s.pkHi := rfl
@[simp] theorem State.withPosition_ibuf (x y z : Half) : (s.withPosition x y z).ibuf = s.ibuf := rfl
@[simp] theorem State.withPosition_obuf (x y z : Half) : (s.withPosition x y z).obuf = s.obuf := rfl
@[simp] theorem State.withPosition_params (x y z : Half) : (s.withPosition x y z).params = s.params := rfl
@[simp] theorem State.withPosition_freeNext (x y z : Half) : (s.withPosition x y z).freeNext = s.freeNext := rfl
@[simp] theorem State.withPosition_program (x y z : Half) : (s.withPosition x y z).program = s.program := rfl
@[simp] theorem State.withPosition_response (x y z : Half) : (s.withPosition x y z).response = s.response := rfl

/-! ### withColour -/

@[simp] theorem State.withColour_status (r g b : Byte) : (s.withColour r g b).status = s.status := rfl
@[simp] theorem State.withColour_codecSel (r g b : Byte) : (s.withColour r g b).codecSel = s.codecSel := rfl
@[simp] theorem State.withColour_nElems (r g b : Byte) : (s.withColour r g b).nElems = s.nElems := rfl
@[simp] theorem State.withColour_encCap (r g b : Byte) : (s.withColour r g b).encCap = s.encCap := rfl
@[simp] theorem State.withColour_encLen (r g b : Byte) : (s.withColour r g b).encLen = s.encLen := rfl
@[simp] theorem State.withColour_px (r g b : Byte) : (s.withColour r g b).px = s.px := rfl
@[simp] theorem State.withColour_py (r g b : Byte) : (s.withColour r g b).py = s.py := rfl
@[simp] theorem State.withColour_pz (r g b : Byte) : (s.withColour r g b).pz = s.pz := rfl
@[simp] theorem State.withColour_cr (r g b : Byte) : (s.withColour r g b).cr = r := rfl
@[simp] theorem State.withColour_cg (r g b : Byte) : (s.withColour r g b).cg = g := rfl
@[simp] theorem State.withColour_cb (r g b : Byte) : (s.withColour r g b).cb = b := rfl
@[simp] theorem State.withColour_pkLo (r g b : Byte) : (s.withColour r g b).pkLo = s.pkLo := rfl
@[simp] theorem State.withColour_pkHi (r g b : Byte) : (s.withColour r g b).pkHi = s.pkHi := rfl
@[simp] theorem State.withColour_ibuf (r g b : Byte) : (s.withColour r g b).ibuf = s.ibuf := rfl
@[simp] theorem State.withColour_obuf (r g b : Byte) : (s.withColour r g b).obuf = s.obuf := rfl
@[simp] theorem State.withColour_params (r g b : Byte) : (s.withColour r g b).params = s.params := rfl
@[simp] theorem State.withColour_freeNext (r g b : Byte) : (s.withColour r g b).freeNext = s.freeNext := rfl
@[simp] theorem State.withColour_program (r g b : Byte) : (s.withColour r g b).program = s.program := rfl
@[simp] theorem State.withColour_response (r g b : Byte) : (s.withColour r g b).response = s.response := rfl

/-! ### withPacked -/

@[simp] theorem State.withPacked_status (lo hi : Word) : (s.withPacked lo hi).status = s.status := rfl
@[simp] theorem State.withPacked_codecSel (lo hi : Word) : (s.withPacked lo hi).codecSel = s.codecSel := rfl
@[simp] theorem State.withPacked_nElems (lo hi : Word) : (s.withPacked lo hi).nElems = s.nElems := rfl
@[simp] theorem State.withPacked_encCap (lo hi : Word) : (s.withPacked lo hi).encCap = s.encCap := rfl
@[simp] theorem State.withPacked_encLen (lo hi : Word) : (s.withPacked lo hi).encLen = s.encLen := rfl
@[simp] theorem State.withPacked_px (lo hi : Word) : (s.withPacked lo hi).px = s.px := rfl
@[simp] theorem State.withPacked_py (lo hi : Word) : (s.withPacked lo hi).py = s.py := rfl
@[simp] theorem State.withPacked_pz (lo hi : Word) : (s.withPacked lo hi).pz = s.pz := rfl
@[simp] theorem State.withPacked_cr (lo hi : Word) : (s.withPacked lo hi).cr = s.cr := rfl
@[simp] theorem State.withPacked_cg (lo hi : Word) : (s.withPacked lo hi).cg = s.cg := rfl
@[simp] theorem State.withPacked_cb (lo hi : Word) : (s.withPacked lo hi).cb = s.cb := rfl
@[simp] theorem State.withPacked_pkLo (lo hi : Word) : (s.withPacked lo hi).pkLo = lo := rfl
@[simp] theorem State.withPacked_pkHi (lo hi : Word) : (s.withPacked lo hi).pkHi = hi := rfl
@[simp] theorem State.withPacked_ibuf (lo hi : Word) : (s.withPacked lo hi).ibuf = s.ibuf := rfl
@[simp] theorem State.withPacked_obuf (lo hi : Word) : (s.withPacked lo hi).obuf = s.obuf := rfl
@[simp] theorem State.withPacked_params (lo hi : Word) : (s.withPacked lo hi).params = s.params := rfl
@[simp] theorem State.withPacked_freeNext (lo hi : Word) : (s.withPacked lo hi).freeNext = s.freeNext := rfl
@[simp] theorem State.withPacked_program (lo hi : Word) : (s.withPacked lo hi).program = s.program := rfl
@[simp] theorem State.withPacked_response (lo hi : Word) : (s.withPacked lo hi).response = s.response := rfl

/-! ### withIbuf -/

@[simp] theorem State.withIbuf_status (m : Memory) : (s.withIbuf m).status = s.status := rfl
@[simp] theorem State.withIbuf_codecSel (m : Memory) : (s.withIbuf m).codecSel = s.codecSel := rfl
@[simp] theorem State.withIbuf_nElems (m : Memory) : (s.withIbuf m).nElems = s.nElems := rfl
@[simp] theorem State.withIbuf_encCap (m : Memory) : (s.withIbuf m).encCap = s.encCap := rfl
@[simp] theorem State.withIbuf_encLen (m : Memory) : (s.withIbuf m).encLen = s.encLen := rfl
@[simp] theorem State.withIbuf_px (m : Memory) : (s.withIbuf m).px = s.px := rfl
@[simp] theorem State.withIbuf_py (m : Memory) : (s.withIbuf m).py = s.py := rfl
@[simp] theorem State.withIbuf_pz (m : Memory) : (s.withIbuf m).pz = s.pz := rfl
@[simp] theorem State.withIbuf_cr (m : Memory) : (s.withIbuf m).cr = s.cr := rfl
@[simp] theorem State.withIbuf_cg (m : Memory) : (s.withIbuf m).cg = s.cg := rfl
@[simp] theorem State.withIbuf_cb (m : Memory) : (s.withIbuf m).cb = s.cb := rfl
@[simp] theorem State.withIbuf_pkLo (m : Memory) : (s.withIbuf m).pkLo = s.pkLo := rfl
@[simp] theorem State.withIbuf_pkHi (m : Memory) : (s.withIbuf m).pkHi = s.pkHi := rfl
@[simp] theorem State.withIbuf_ibuf (m : Memory) : (s.withIbuf m).ibuf = m := rfl
@[simp] theorem State.withIbuf_obuf (m : Memory) : (s.withIbuf m).obuf = s.obuf := rfl
@[simp] theorem State.withIbuf_params (m : Memory) : (s.withIbuf m).params = s.params := rfl
@[simp] theorem State.withIbuf_freeNext (m : Memory) : (s.withIbuf m).freeNext = s.freeNext := rfl
@[simp] theorem State.withIbuf_program (m : Memory) : (s.withIbuf m).program = s.program := rfl
@[simp] theorem State.withIbuf_response (m : Memory) : (s.withIbuf m).response = s.response := rfl

/-! ### withObuf -/

@[simp] theorem State.withObuf_status (m : Memory) : (s.withObuf m).status = s.status := rfl
@[simp] theorem State.withObuf_codecSel (m : Memory) : (s.withObuf m).codecSel = s.codecSel := rfl
@[simp] theorem State.withObuf_nElems (m : Memory) : (s.withObuf m).nElems = s.nElems := rfl
@[simp] theorem State.withObuf_encCap (m : Memory) : (s.withObuf m).encCap = s.encCap := rfl
@[simp] theorem State.withObuf_encLen (m : Memory) : (s.withObuf m).encLen = s.encLen := rfl
@[simp] theorem State.withObuf_px (m : Memory) : (s.withObuf m).px = s.px := rfl
@[simp] theorem State.withObuf_py (m : Memory) : (s.withObuf m).py = s.py := rfl
@[simp] theorem State.withObuf_pz (m : Memory) : (s.withObuf m).pz = s.pz := rfl
@[simp] theorem State.withObuf_cr (m : Memory) : (s.withObuf m).cr = s.cr := rfl
@[simp] theorem State.withObuf_cg (m : Memory) : (s.withObuf m).cg = s.cg := rfl
@[simp] theorem State.withObuf_cb (m : Memory) : (s.withObuf m).cb = s.cb := rfl
@[simp] theorem State.withObuf_pkLo (m : Memory) : (s.withObuf m).pkLo = s.pkLo := rfl
@[simp] theorem State.withObuf_pkHi (m : Memory) : (s.withObuf m).pkHi = s.pkHi := rfl
@[simp] theorem State.withObuf_ibuf (m : Memory) : (s.withObuf m).ibuf = s.ibuf := rfl
@[simp] theorem State.withObuf_obuf (m : Memory) : (s.withObuf m).obuf = m := rfl
@[simp] theorem State.withObuf_params (m : Memory) : (s.withObuf m).params = s.params := rfl
@[simp] theorem State.withObuf_freeNext (m : Memory) : (s.withObuf m).freeNext = s.freeNext := rfl
@[simp] theorem State.withObuf_program (m : Memory) : (s.withObuf m).program = s.program := rfl
@[simp] theorem State.withObuf_response (m : Memory) : (s.withObuf m).response = s.response := rfl

/-! ### withFreeNext -/

@[simp] theorem State.withFreeNext_status (e : Nat) : (s.withFreeNext e).status = s.status := rfl
@[simp] theorem State.withFreeNext_codecSel (e : Nat) : (s.withFreeNext e).codecSel = s.codecSel := rfl
@[simp] theorem State.withFreeNext_nElems (e : Nat) : (s.withFreeNext e).nElems = s.nElems := rfl
@[simp] theorem State.withFreeNext_encCap (e : Nat) : (s.withFreeNext e).encCap = s.encCap := rfl
@[simp] theorem State.withFreeNext_encLen (e : Nat) : (s.withFreeNext e).encLen = s.encLen := rfl
@[simp] theorem State.withFreeNext_px (e : Nat) : (s.withFreeNext e).px = s.px := rfl
@[simp] theorem State.withFreeNext_py (e : Nat) : (s.withFreeNext e).py = s.py := rfl
@[simp] theorem State.withFreeNext_pz (e : Nat) : (s.withFreeNext e).pz = s.pz := rfl
@[simp] theorem State.withFreeNext_cr (e : Nat) : (s.withFreeNext e).cr = s.cr := rfl
@[simp] theorem State.withFreeNext_cg (e : Nat) : (s.withFreeNext e).cg = s.cg := rfl
@[simp] theorem State.withFreeNext_cb (e : Nat) : (s.withFreeNext e).cb = s.cb := rfl
@[simp] theorem State.withFreeNext_pkLo (e : Nat) : (s.withFreeNext e).pkLo = s.pkLo := rfl
@[simp] theorem State.withFreeNext_pkHi (e : Nat) : (s.withFreeNext e).pkHi = s.pkHi := rfl
@[simp] theorem State.withFreeNext_ibuf (e : Nat) : (s.withFreeNext e).ibuf = s.ibuf := rfl
@[simp] theorem State.withFreeNext_obuf (e : Nat) : (s.withFreeNext e).obuf = s.obuf := rfl
@[simp] theorem State.withFreeNext_params (e : Nat) : (s.withFreeNext e).params = s.params := rfl
@[simp] theorem State.withFreeNext_freeNext (e : Nat) : (s.withFreeNext e).freeNext = e := rfl
@[simp] theorem State.withFreeNext_program (e : Nat) : (s.withFreeNext e).program = s.program := rfl
@[simp] theorem State.withFreeNext_response (e : Nat) : (s.withFreeNext e).response = s.response := rfl

/-! ### withProgram -/

@[simp] theorem State.withProgram_status (ts : List Txn) : (s.withProgram ts).status = s.status := rfl
@[simp] theorem State.withProgram_codecSel (ts : List Txn) : (s.withProgram ts).codecSel = s.codecSel := rfl
@[simp] theorem State.withProgram_nElems (ts : List Txn) : (s.withProgram ts).nElems = s.nElems := rfl
@[simp] theorem State.withProgram_encCap (ts : List Txn) : (s.withProgram ts).encCap = s.encCap := rfl
@[simp] theorem State.withProgram_encLen (ts : List Txn) : (s.withProgram ts).encLen = s.encLen := rfl
@[simp] theorem State.withProgram_px (ts : List Txn) : (s.withProgram ts).px = s.px := rfl
@[simp] theorem State.withProgram_py (ts : List Txn) : (s.withProgram ts).py = s.py := rfl
@[simp] theorem State.withProgram_pz (ts : List Txn) : (s.withProgram ts).pz = s.pz := rfl
@[simp] theorem State.withProgram_cr (ts : List Txn) : (s.withProgram ts).cr = s.cr := rfl
@[simp] theorem State.withProgram_cg (ts : List Txn) : (s.withProgram ts).cg = s.cg := rfl
@[simp] theorem State.withProgram_cb (ts : List Txn) : (s.withProgram ts).cb = s.cb := rfl
@[simp] theorem State.withProgram_pkLo (ts : List Txn) : (s.withProgram ts).pkLo = s.pkLo := rfl
@[simp] theorem State.withProgram_pkHi (ts : List Txn) : (s.withProgram ts).pkHi = s.pkHi := rfl
@[simp] theorem State.withProgram_ibuf (ts : List Txn) : (s.withProgram ts).ibuf = s.ibuf := rfl
@[simp] theorem State.withProgram_obuf (ts : List Txn) : (s.withProgram ts).obuf = s.obuf := rfl
@[simp] theorem State.withProgram_params (ts : List Txn) : (s.withProgram ts).params = s.params := rfl
@[simp] theorem State.withProgram_freeNext (ts : List Txn) : (s.withProgram ts).freeNext = s.freeNext := rfl
@[simp] theorem State.withProgram_program (ts : List Txn) : (s.withProgram ts).program = ts := rfl
@[simp] theorem State.withProgram_response (ts : List Txn) : (s.withProgram ts).response = s.response := rfl

/-! ### withResponse -/

@[simp] theorem State.withResponse_status (a : Response) : (s.withResponse a).status = s.status := rfl
@[simp] theorem State.withResponse_codecSel (a : Response) : (s.withResponse a).codecSel = s.codecSel := rfl
@[simp] theorem State.withResponse_nElems (a : Response) : (s.withResponse a).nElems = s.nElems := rfl
@[simp] theorem State.withResponse_encCap (a : Response) : (s.withResponse a).encCap = s.encCap := rfl
@[simp] theorem State.withResponse_encLen (a : Response) : (s.withResponse a).encLen = s.encLen := rfl
@[simp] theorem State.withResponse_px (a : Response) : (s.withResponse a).px = s.px := rfl
@[simp] theorem State.withResponse_py (a : Response) : (s.withResponse a).py = s.py := rfl
@[simp] theorem State.withResponse_pz (a : Response) : (s.withResponse a).pz = s.pz := rfl
@[simp] theorem State.withResponse_cr (a : Response) : (s.withResponse a).cr = s.cr := rfl
@[simp] theorem State.withResponse_cg (a : Response) : (s.withResponse a).cg = s.cg := rfl
@[simp] theorem State.withResponse_cb (a : Response) : (s.withResponse a).cb = s.cb := rfl
@[simp] theorem State.withResponse_pkLo (a : Response) : (s.withResponse a).pkLo = s.pkLo := rfl
@[simp] theorem State.withResponse_pkHi (a : Response) : (s.withResponse a).pkHi = s.pkHi := rfl
@[simp] theorem State.withResponse_ibuf (a : Response) : (s.withResponse a).ibuf = s.ibuf := rfl
@[simp] theorem State.withResponse_obuf (a : Response) : (s.withResponse a).obuf = s.obuf := rfl
@[simp] theorem State.withResponse_params (a : Response) : (s.withResponse a).params = s.params := rfl
@[simp] theorem State.withResponse_freeNext (a : Response) : (s.withResponse a).freeNext = s.freeNext := rfl
@[simp] theorem State.withResponse_program (a : Response) : (s.withResponse a).program = s.program := rfl
@[simp] theorem State.withResponse_response (a : Response) : (s.withResponse a).response = some a := rfl

end Sys2Proof.Machine
end

