-- ==== Sys2Proof/Laws/Memory.lean ====
section
/-! SUPPORT. What the buffer operations do: read after write, what they leave alone, and that each keeps the canonical form. -/

namespace Sys2Proof.Machine

/-! ### Cells -/

theorem cellAt_setCell (i j : Nat) (v : Word) (cs : List (Nat × Word)) :
    cellAt i (setCell j v cs) = if i = j then some v else cellAt i cs := by
  induction cs with
  | nil => simp [setCell, cellAt]
  | cons c cs ih =>
    obtain ⟨k, w⟩ := c
    simp only [setCell]
    split
    · simp [cellAt]
    · split
      · subst_vars
        by_cases h : i = k <;> simp [cellAt, h]
      · by_cases h : i = k
        · subst h
          have : i ≠ j := fun e => by omega
          simp [cellAt, this]
        · simp [cellAt, h, ih]

theorem cellAt_append (i : Nat) (as bs : List (Nat × Word)) :
    cellAt i (as ++ bs) = (cellAt i as).or (cellAt i bs) := by
  induction as with
  | nil => simp [cellAt]
  | cons a as ih =>
    obtain ⟨j, v⟩ := a
    by_cases h : i = j <;> simp [cellAt, h, ih]

theorem cellAt_cellsFrom (i k : Nat) (ws : List Word) :
    cellAt i (cellsFrom k ws) = if k ≤ i then ws[i - k]? else none := by
  induction ws generalizing k with
  | nil => simp [cellsFrom, cellAt]
  | cons w ws ih =>
    by_cases h : i = k
    · subst h; simp [cellsFrom, cellAt]
    · by_cases hk : k ≤ i
      · obtain ⟨d, rfl⟩ : ∃ d, i = k + 1 + d := ⟨i - (k + 1), by omega⟩
        have e : k + 1 + d - k = d + 1 := by omega
        simp [cellsFrom, cellAt, ih, e, show k ≤ k + 1 + d by omega, show ¬ k + 1 + d = k by omega]
      · have h1 : ¬ k + 1 ≤ i := by omega
        simp [cellsFrom, cellAt, h, ih, hk, h1]

theorem cellAt_filter_ge (i n : Nat) (cs : List (Nat × Word)) :
    cellAt i (cs.filter fun c => decide (n ≤ c.1)) = if n ≤ i then cellAt i cs else none := by
  induction cs with
  | nil => simp [cellAt]
  | cons c cs ih =>
    obtain ⟨j, v⟩ := c
    by_cases hj : n ≤ j
    · by_cases h : i = j
      · subst h; simp [cellAt, hj]
      · simp [cellAt, hj, h, ih]
    · by_cases h : i = j
      · subst h; simp [hj, ih]
      · simp [cellAt, hj, h, ih]

theorem mem_cellsFrom {c : Nat × Word} {k : Nat} {ws : List Word} (h : c ∈ cellsFrom k ws) :
    k ≤ c.1 ∧ c.1 < k + ws.length := by
  induction ws generalizing k with
  | nil => simp [cellsFrom] at h
  | cons w ws ih =>
    rcases List.mem_cons.1 h with rfl | h
    · simp
    · have := ih h
      simp only [List.length_cons]
      omega

theorem cellsFrom_rising (k : Nat) (ws : List Word) : (cellsFrom k ws).Pairwise fun a b => a.1 < b.1 := by
  induction ws generalizing k with
  | nil => simp [cellsFrom]
  | cons w ws ih =>
    refine List.Pairwise.cons (fun c h => ?_) (ih (k + 1))
    have := mem_cellsFrom h
    dsimp only
    omega

theorem mem_setCell {c : Nat × Word} {i : Nat} {v : Word} {cs : List (Nat × Word)} (h : c ∈ setCell i v cs) :
    c = (i, v) ∨ c ∈ cs := by
  induction cs with
  | nil => simpa [setCell] using h
  | cons d cs ih =>
    simp only [setCell] at h
    split at h
    · simpa using h
    · split at h
      · rcases List.mem_cons.1 h with h | h
        · exact .inl h
        · exact .inr (List.mem_cons_of_mem _ h)
      · rcases List.mem_cons.1 h with h | h
        · exact .inr (h ▸ List.mem_cons_self ..)
        · exact (ih h).imp_right (List.mem_cons_of_mem _)

theorem setCell_rising (i : Nat) (v : Word) {cs : List (Nat × Word)} (h : cs.Pairwise fun a b => a.1 < b.1) :
    (setCell i v cs).Pairwise fun a b => a.1 < b.1 := by
  induction cs with
  | nil => simp [setCell]
  | cons d cs ih =>
    obtain ⟨hd, hcs⟩ := List.pairwise_cons.1 h
    simp only [setCell]
    split
    · refine List.pairwise_cons.2 ⟨fun c hc => ?_, h⟩
      rcases List.mem_cons.1 hc with rfl | hc
      · assumption
      · have := hd c hc
        dsimp only
        omega
    · split
      · subst_vars
        exact List.pairwise_cons.2 ⟨hd, hcs⟩
      · refine List.pairwise_cons.2 ⟨fun c hc => ?_, ih hcs⟩
        rcases mem_setCell hc with rfl | hc
        · dsimp only
          omega
        · exact hd c hc

/-! ### Reads after writes -/

theorem Memory.read_write (m : Memory) (sp : Space) (i j : Nat) (v : Word) :
    (m.write j v).read sp i = if i = j then v else m.read sp i := by
  by_cases h : i = j <;> simp [Memory.read, Memory.write, cellAt_setCell, h]

theorem Memory.read_writePrefix (m : Memory) (sp : Space) (i : Nat) (ws : List Word) :
    (m.writePrefix ws).read sp i = if h : i < ws.length then ws[i] else m.read sp i := by
  by_cases h : i < ws.length
  · simp [Memory.read, Memory.writePrefix, cellAt_append, cellAt_cellsFrom, h]
  · have h' : ws.length ≤ i := by omega
    simp [Memory.read, Memory.writePrefix, cellAt_append, cellAt_cellsFrom, cellAt_filter_ge, h, h']

theorem epochAt_filter (i len base : Nat) (fs : List (Nat × Nat)) (h : len ≤ i) :
    epochAt i base (fs.filter fun f => decide (len < f.1)) = epochAt i base fs := by
  induction fs with
  | nil => rfl
  | cons f fs ih =>
    obtain ⟨l, e⟩ := f
    by_cases hl : len < l
    · simp [epochAt, hl, ih]
    · have : ¬ i < l := by omega
      simp [epochAt, hl, ih, this]

theorem Memory.read_scramble (m : Memory) (sp : Space) (i len e : Nat) :
    (m.scramble len e).read sp i = if i < len then Config.freeWord e sp i else m.read sp i := by
  by_cases h : i < len
  · simp [Memory.read, Memory.scramble, cellAt_filter_ge, epochAt, h, show ¬ len ≤ i by omega]
  · have h' : len ≤ i := by omega
    simp [Memory.read, Memory.scramble, cellAt_filter_ge, epochAt, h, h', epochAt_filter]

theorem Memory.read_unspecified (e : Nat) (sp : Space) (i : Nat) :
    (Memory.unspecified e).read sp i = Config.freeWord e sp i := rfl

/-! ### The canonical form -/

/-- The canonical form, as a proposition. -/
theorem Memory.wf_iff (size next : Nat) (m : Memory) :
    m.wf size next = true ↔
      m.cells.Pairwise (fun a b => a.1 < b.1) ∧ (∀ c ∈ m.cells, c.1 < size) ∧
      m.fills.Pairwise (fun a b => a.1 < b.1 ∧ b.2 < a.2) ∧
      (∀ f ∈ m.fills, 0 < f.1 ∧ f.1 ≤ size ∧ m.base < f.2 ∧ f.2 < next) ∧ m.base < next := by
  simp [Memory.wf, and_assoc]

theorem Memory.wf_unspecified (size e : Nat) : (Memory.unspecified e).wf size (e + 1) = true := by
  simp [Memory.wf, Memory.unspecified]

theorem Memory.wf_mono {size next next' : Nat} {m : Memory} (h : m.wf size next = true) (hn : next ≤ next') :
    m.wf size next' = true := by
  rw [Memory.wf_iff] at h ⊢
  obtain ⟨h1, h2, h3, h4, h5⟩ := h
  exact ⟨h1, h2, h3, fun f hf => by have := h4 f hf; omega, by omega⟩

theorem Memory.wf_write {size next : Nat} {m : Memory} (h : m.wf size next = true) {i : Nat} (hi : i < size) (v : Word) :
    (m.write i v).wf size next = true := by
  rw [Memory.wf_iff] at h ⊢
  obtain ⟨h1, h2, h3⟩ := h
  refine ⟨setCell_rising i v h1, fun c hc => ?_, h3⟩
  rcases mem_setCell hc with rfl | hc
  · exact hi
  · exact h2 c hc

theorem Memory.wf_writePrefix {size next : Nat} {m : Memory} (h : m.wf size next = true) {ws : List Word}
    (hl : ws.length ≤ size) : (m.writePrefix ws).wf size next = true := by
  rw [Memory.wf_iff] at h ⊢
  obtain ⟨h1, h2, h3⟩ := h
  refine ⟨?_, fun c hc => ?_, h3⟩
  · refine List.pairwise_append.2 ⟨cellsFrom_rising 0 ws, h1.filter _, fun a ha b hb => ?_⟩
    have ha := mem_cellsFrom ha
    have hb := (List.mem_filter.1 hb).2
    simp only [decide_eq_true_eq] at hb
    omega
  · rcases List.mem_append.1 hc with hc | hc
    · have := mem_cellsFrom hc
      omega
    · exact h2 c (List.mem_filter.1 hc).1

theorem Memory.wf_scramble {size next : Nat} {m : Memory} (h : m.wf size next = true) {len : Nat} (h0 : 0 < len)
    (hl : len ≤ size) : (m.scramble len next).wf size (next + 1) = true := by
  rw [Memory.wf_iff] at h ⊢
  obtain ⟨h1, h2, h3, h4, h5⟩ := h
  refine ⟨h1.filter _, fun c hc => h2 c (List.mem_filter.1 hc).1, ?_, fun f hf => ?_, Nat.lt_succ_of_lt h5⟩
  · refine List.pairwise_cons.2 ⟨fun f hf => ?_, h3.filter _⟩
    obtain ⟨hf, hlt⟩ := List.mem_filter.1 hf
    simp only [decide_eq_true_eq] at hlt
    exact ⟨hlt, (h4 f hf).2.2.2⟩
  · rcases List.mem_cons.1 hf with rfl | hf
    · exact ⟨h0, hl, h5, Nat.lt_succ_self _⟩
    · have := h4 f (List.mem_filter.1 hf).1
      exact ⟨this.1, this.2.1, this.2.2.1, Nat.lt_succ_of_lt this.2.2.2⟩

/-! ### Words of the state -/

@[simp] theorem State.mem_ibuf (s : State) : s.mem .ibuf = s.ibuf := rfl
@[simp] theorem State.mem_obuf (s : State) : s.mem .obuf = s.obuf := rfl
@[simp] theorem State.withMem_ibuf (s : State) (m : Memory) : s.withMem .ibuf m = s.withIbuf m := rfl
@[simp] theorem State.withMem_obuf (s : State) (m : Memory) : s.withMem .obuf m = s.withObuf m := rfl

/-- A word depends on its buffer's contents alone. -/
theorem State.word_congr {s t : State} {sp : Space} (h : s.mem sp = t.mem sp) (i : Nat) : s.word sp i = t.word sp i := by
  rw [State.word, State.word, h]

/-- Writing a word: that word takes the value, every other word of either buffer stays. -/
theorem State.word_writeWord (s : State) (sp sp' : Space) (i j : Nat) (v : Word) :
    (s.writeWord sp i v).word sp' j = if sp' = sp ∧ j = i then v else s.word sp' j := by
  cases sp <;> cases sp' <;> simp [State.word, State.writeWord, Memory.read_write]

/-- Writing a command's output: its words from index 0 on, every other word of either buffer stays. -/
theorem State.word_writeOutput (s : State) (ws : List Word) (k : Nat) :
    (s.writeOutput ws).word .obuf k = if h : k < ws.length then ws[k] else s.word .obuf k := by
  simp [State.word, State.writeOutput, Memory.read_writePrefix]

theorem State.writeOutput_ibuf (s : State) (ws : List Word) : (s.writeOutput ws).ibuf = s.ibuf := rfl

/-- An unspecified output region: its words take the free values of one event, every other word stays. -/
theorem State.word_scrambleOutput (s : State) (len k : Nat) :
    (s.scrambleOutput len).word .obuf k = if k < len then Config.freeWord s.freeNext .obuf k else s.word .obuf k := by
  by_cases h : len = 0
  · subst h; simp [State.scrambleOutput]
  · simp [State.scrambleOutput, h, State.word, Memory.read_scramble]

/-- Making a region unspecified changes OBUF and the event counter only. -/
theorem State.scrambleOutput_frame (s : State) (len : Nat) :
    s.scrambleOutput len =
      (s.withObuf (s.scrambleOutput len).obuf).withFreeNext (s.scrambleOutput len).freeNext := by
  by_cases h : len = 0
  · subst h; rfl
  · simp [State.scrambleOutput, h]

theorem State.scrambleOutput_freeNext_le (s : State) (len : Nat) : s.freeNext ≤ (s.scrambleOutput len).freeNext := by
  by_cases h : len = 0 <;> simp [State.scrambleOutput, h]

theorem State.reset_ibuf_wf : State.reset.ibuf.wf State.reset.params.ibufWords State.reset.freeNext = true :=
  Memory.wf_unspecified _ _

theorem State.reset_obuf_wf : State.reset.obuf.wf State.reset.params.obufWords State.reset.freeNext = true :=
  Memory.wf_unspecified _ _

end Sys2Proof.Machine
end

