-- ==== Sys2Proof/Laws/PerInstr.lean ====
section
/-! SUPPORT. What holds of every command as syntax, one lemma per constructor. -/

namespace Sys2Proof.Laws

/-- The word of a command holds its opcode, zeros and its immediate in the fields of rules R81 to R83. -/
def EncodeFields.Statement (i : Instr) : Prop :=
  opField (encode i) = opcode i ∧ zeroField (encode i) = 0 ∧ imm8Field (encode i) = immediate i

theorem EncodeFields.nop : EncodeFields.Statement .nop := by unfold EncodeFields.Statement; decide
theorem EncodeFields.enc32 : EncodeFields.Statement .enc32 := by unfold EncodeFields.Statement; decide
theorem EncodeFields.enc64 : EncodeFields.Statement .enc64 := by unfold EncodeFields.Statement; decide
theorem EncodeFields.dec32 : EncodeFields.Statement .dec32 := by unfold EncodeFields.Statement; decide
theorem EncodeFields.dec64 : EncodeFields.Statement .dec64 := by unfold EncodeFields.Statement; decide
theorem EncodeFields.pack64 : EncodeFields.Statement .pack64 := by unfold EncodeFields.Statement; decide
theorem EncodeFields.pack32 : EncodeFields.Statement .pack32 := by unfold EncodeFields.Statement; decide
theorem EncodeFields.unpack64 : EncodeFields.Statement .unpack64 := by unfold EncodeFields.Statement; decide
theorem EncodeFields.unpack32 : EncodeFields.Statement .unpack32 := by unfold EncodeFields.Statement; decide
theorem EncodeFields.setcodec (imm8 : Byte) : EncodeFields.Statement (.setcodec imm8) := by
  unfold EncodeFields.Statement
  revert imm8
  decide

end Sys2Proof.Laws
end

