-- ==== Sys2Proof/Laws/Ops.lean ====
section
/-! SUPPORT. What each shared operation can do, said once: how a command ends, the two codec procedures, the packer, a transaction. -/

namespace Sys2Proof.Machine

/-! ### Endings -/

theorem State.succeed_eq (s : State) : s.succeed = s.withStatus 0 := rfl

theorem State.raise_eq (s : State) (c : ErrCode) : s.raise c = s.withStatus (statusWord c) := rfl

/-- The status word of every code is one of the twelve of rule R27. -/
theorem statusWord_mem (c : ErrCode) : statusWord c ∈ statusValues := by cases c <;> decide

/-- Only success has the status word 0. -/
theorem statusWord_eq_zero (c : ErrCode) : statusWord c = 0 ↔ c = .ok := by cases c <;> decide

/-- What a failing ENC command leaves behind, field by field. -/
theorem State.failEnc_eq (s : State) (c : ErrCode) :
    s.failEnc c = (((s.withObuf (s.scrambleOutput s.encRegion).obuf).withFreeNext
      (s.scrambleOutput s.encRegion).freeNext).withEncLen 0).withStatus (statusWord c) := by
  rw [State.failEnc, State.scrambleOutput_frame s s.encRegion]
  rfl

/-- What a failing DEC command leaves behind, field by field. -/
theorem State.failDec_eq (s : State) (K : Nat) (c : ErrCode) :
    s.failDec K c = ((s.withObuf (s.scrambleOutput (s.decRegion K)).obuf).withFreeNext
      (s.scrambleOutput (s.decRegion K)).freeNext).withStatus (statusWord c) := by
  rw [State.failDec, State.scrambleOutput_frame s (s.decRegion K)]
  rfl

/-- A failing ENC command: words of OBUF outside its region stay. -/
theorem State.word_failEnc (s : State) (c : ErrCode) (k : Nat) :
    (s.failEnc c).word .obuf k = if k < s.encRegion then Config.freeWord s.freeNext .obuf k else s.word .obuf k :=
  State.word_scrambleOutput s s.encRegion k

/-- A failing DEC command: words of OBUF outside its region stay. -/
theorem State.word_failDec (s : State) (K : Nat) (c : ErrCode) (k : Nat) :
    (s.failDec K c).word .obuf k =
      if k < s.decRegion K then Config.freeWord s.freeNext .obuf k else s.word .obuf k :=
  State.word_scrambleOutput s (s.decRegion K) k

/-! ### The codec procedures -/

/-- Everything `ENC(W)` can do. -/
theorem encCommand_cases (W : Width) (s : State) :
    (∃ c, s.encResult W = .error c ∧ encCommand W s = s.failEnc c) ∨
    (s.encResult W = .ok (s.encStream W) ∧
      encCommand W s =
        (((s.withObuf (s.obuf.writePrefix (s.encStream W))).withEncLen (BitVec.ofNat 32 (s.encStream W).length)).withStatus 0)) := by
  unfold encCommand
  cases h : s.encResult W with
  | error c => exact .inl ⟨c, rfl, rfl⟩
  | ok S =>
    have : S = s.encStream W := by
      unfold State.encResult at h
      split at h
      · cases h
      · split at h
        · cases h
        · split at h
          · cases h
          · exact (Except.ok.inj h).symm
    subst this
    exact .inr ⟨rfl, rfl⟩

/-- When the checks of `ENC(W)` pass. -/
theorem encResult_ok_iff (W : Width) (s : State) :
    s.encResult W = .ok (s.encStream W) ↔
      s.nElems.toNat ≤ Config.maxN ∧ widthWords W * s.nElems.toNat ≤ s.params.ibufWords ∧
      s.nElems.toNat % s.req = 0 ∧ (s.encStream W).length ≤ s.encCap.toNat ∧ (s.encStream W).length ≤ s.params.obufWords := by
  unfold State.encResult
  split
  · simp; omega
  · split
    · simp; omega
    · split
      · simp; omega
      · simp; omega

/-- Everything `DEC(W)` can do. -/
theorem decCommand_cases (W : Width) (s : State) :
    (∃ c, s.decResult W = .error c ∧ decCommand W s = s.failDec (widthWords W) c) ∨
    (∃ xs, s.decResult W = .ok xs ∧
      decCommand W s = (s.withObuf (s.obuf.writePrefix (xs.flatMap (elementWords W)))).withStatus 0) := by
  unfold decCommand
  cases h : s.decResult W with
  | error c => exact .inl ⟨c, rfl, rfl⟩
  | ok xs => exact .inr ⟨xs, rfl, rfl⟩

/-- When the checks of `DEC(W)` pass, and what is decoded. -/
theorem decResult_ok_iff (W : Width) (s : State) (xs : List Nat) :
    s.decResult W = .ok xs ↔
      s.nElems.toNat ≤ Config.maxN ∧ s.encLen.toNat ≤ s.params.ibufWords ∧ s.nElems.toNat % s.req = 0 ∧
      widthWords W * s.nElems.toNat ≤ s.params.obufWords ∧ s.decStream W = .ok xs := by
  unfold State.decResult
  split
  · simp; omega
  · split
    · simp; omega
    · split
      · simp; omega
      · simp only [not_or, Nat.not_lt] at *
        tauto

/-- An error of a codec command is never the code of success. -/
theorem encResult_error_ne_ok {W : Width} {s : State} {c : ErrCode} (h : s.encResult W = .error c) : c ≠ .ok := by
  unfold State.encResult at h
  rintro rfl
  split at h
  · cases h
  · split at h
    · cases h
    · split at h <;> cases h

/-! ### The packer -/

theorem State.packVoxel_eq (s : State) :
    s.packVoxel = s.withPacked (BitVec.ofNat 32 (slice (packWord s.px s.py s.pz s.cr s.cg s.cb) 31 0))
      (BitVec.ofNat 32 (slice (packWord s.px s.py s.pz s.cr s.cg s.cb) 63 32)) := rfl

theorem State.unpackVoxel_packed (s : State) : s.unpackVoxel.packed = s.packed := rfl

/-! ### Commands and transactions -/

/-- What each command does, as one update of the state. -/
def commandState : Instr → State → State
  | .nop, s => s.succeed
  | .setcodec imm8, s => if 3 < imm8.toNat then s.raise .selector else (s.withCodecSel (imm8.setWidth 2)).succeed
  | .enc32, s => encCommand .w32 s
  | .enc64, s => encCommand .w64 s
  | .dec32, s => decCommand .w32 s
  | .dec64, s => decCommand .w64 s
  | .pack64, s => s.packVoxel.succeed
  | .pack32, s => s.packVoxel.succeed
  | .unpack64, s => s.unpackVoxel.succeed
  | .unpack32, s => s.unpackVoxel.succeed

/-- Every command ends in a next state, the one of `commandState`. -/
theorem exec_eq (i : Instr) (s : State) : exec i s = .next (commandState i s) := by
  cases i with
  | setcodec imm8 => by_cases h : 3 < imm8.toNat <;> simp [exec, execSetcodec, commandState, h]
  | _ => rfl

theorem exec_next_iff (i : Instr) (s t : State) : exec i s = .next t ↔ t = commandState i s := by
  rw [exec_eq]
  constructor
  · intro h; cases h; rfl
  · rintro rfl; rfl

/-- A command word ends in a next state: the command's, or the one of an illegal word. -/
theorem runCommand_eq (cw : Word) (s : State) :
    runCommand cw s =
      .next (match decode cw with
        | .ok i => commandState i s
        | .error _ => s.raise .illegalCmd) := by
  unfold runCommand
  cases decode cw with
  | ok i => exact exec_eq i s
  | error e => rfl

/-- A step with no transaction pending. -/
theorem step_idle {s : State} (h : s.program = []) : step s = .next s := by
  rw [step, h]

/-- A step with a transaction pending. -/
theorem step_transact {s : State} {t : Txn} {ts : List Txn} (h : s.program = t :: ts) :
    step s = transact t (s.withProgram ts) := by
  rw [step, h]

end Sys2Proof.Machine
end

