-- ==== Sys2Proof/Laws/Stream.lean ====
section
/-! SUPPORT. Lengths and ranges: what the packing, the encoder's parts and the decoder's parts return, whatever their values. -/

namespace Sys2Proof.Machine

/-! ### Packing -/

@[simp] theorem wordsOf_length (k a : Nat) : (wordsOf k a).length = k := by
  induction k generalizing a with
  | zero => rfl
  | succ k ih => simp [wordsOf, ih]

@[simp] theorem splitBits_length (w c a : Nat) : (splitBits w c a).length = c := by
  induction c generalizing a with
  | zero => rfl
  | succ c ih => simp [splitBits, ih]

@[simp] theorem packbits_length (vs : List Nat) (w : Nat) : (packbits vs w).length = ceilDiv (vs.length * w) 32 := by
  simp [packbits]

@[simp] theorem unpackbits_length (ws : List Word) (c w : Nat) : (unpackbits ws c w).length = c := by
  simp [unpackbits]

/-- Splitting a number into `k` words and joining them keeps its low `32·k` bits. -/
theorem ofWords_wordsOf (k a : Nat) : ofWords (wordsOf k a) = a % 2 ^ (32 * k) := by
  induction k generalizing a with
  | zero => simp [wordsOf, ofWords, Nat.mod_one]
  | succ k ih =>
    rw [wordsOf, ofWords, ih, BitVec.toNat_ofNat, show 32 * (k + 1) = 32 + 32 * k by omega, Nat.pow_add, Nat.mod_mul]

theorem addMod_lt (w a b : Nat) : addMod w a b < 2 ^ w := Nat.mod_lt _ (Nat.two_pow_pos w)

theorem subMod_lt (w a b : Nat) : subMod w a b < 2 ^ w := by
  have h := Int.emod_lt_of_pos ((a : Int) - b) (show (0 : Int) < 2 ^ w by positivity)
  have h0 := Int.emod_nonneg ((a : Int) - b) (show (2 : Int) ^ w ≠ 0 by positivity)
  have : ((2 ^ w : Nat) : Int) = 2 ^ w := by push_cast; rfl
  unfold subMod
  omega

/-- The two exact operations modulo `2^w` are inverse to each other. -/
theorem addMod_subMod {w a b : Nat} (ha : a < 2 ^ w) : addMod w b (subMod w a b) = a := by
  have h0 := Int.emod_nonneg ((a : Int) - b) (show (2 : Int) ^ w ≠ 0 by positivity)
  have hz : ((addMod w b (subMod w a b) : Nat) : Int) = (a : Int) % 2 ^ w := by
    unfold addMod subMod
    push_cast
    rw [Int.toNat_of_nonneg h0, Int.add_emod_emod]
    congr 1
    ring
  have : (a : Int) % 2 ^ w = a := Int.emod_eq_of_lt (by positivity) (by exact_mod_cast ha)
  omega

/-! ### The decoder's parts -/

/-- What `rd` can do. -/
theorem rd_cases (ws : List Word) : (ws = [] ∧ rd ws = .error .truncated) ∨ ∃ w rest, ws = w :: rest ∧ rd ws = .ok (w, rest) := by
  cases ws with
  | nil => exact .inl ⟨rfl, rfl⟩
  | cons w rest => exact .inr ⟨w, rest, rfl, rfl⟩

/-- A step of a decoder that answers came from a step that answered. -/
theorem bind_eq_ok {ε α β : Type} {x : Except ε α} {f : α → Except ε β} {b : β} (h : x.bind f = .ok b) :
    ∃ a, x = .ok a ∧ f a = .ok b := by
  cases x with
  | error e => cases h
  | ok a => exact ⟨a, rfl, h⟩

/-- Reading `k` words takes them off the front, or fails with `E_TRUNCATED` when there are fewer. -/
theorem rdMany_eq (k : Nat) (ws : List Word) :
    rdMany k ws = if k ≤ ws.length then .ok (ws.take k, ws.drop k) else .error .truncated := by
  induction k generalizing ws with
  | zero => simp [rdMany]
  | succ k ih =>
    cases ws with
    | nil => simp [rdMany, rd, Except.bind]
    | cons w ws =>
      by_cases h : k ≤ ws.length <;> simp [rdMany, rd, Except.bind, ih, h]

@[simp] theorem addAt_length (p x : Nat) (vs : List Nat) : (addAt p x vs).length = vs.length := by
  induction vs generalizing p with
  | nil => cases p <;> rfl
  | cons v vs ih => cases p <;> simp [addAt, ih]

@[simp] theorem patch_length (b : Nat) (xs : List (Nat × Nat)) (vs : List Nat) : (patch b xs vs).length = vs.length := by
  induction xs generalizing vs with
  | nil => rfl
  | cons x xs ih => simp [patch, ih]

theorem rdExceptions_length {b mb e : Nat} {low : List Nat} {ws : List Word} {r : List Nat × List Word}
    (h : rdExceptions b mb e low ws = .ok r) : r.1.length = low.length := by
  unfold rdExceptions at h
  split at h
  · cases h; rfl
  · obtain ⟨pw, -, h⟩ := bind_eq_ok h
    dsimp only at h
    split at h
    · obtain ⟨hw, -, h⟩ := bind_eq_ok h
      cases h
      simp
    · cases h

/-- A decoded block has 128 deltas, each below `2^W`. -/
theorem decodeBlock_shape {W : Width} {isPatched : Bool} {ws : List Word} {r : List Nat × List Word}
    (h : decodeBlock W isPatched ws = .ok r) : r.1.length = 128 ∧ ∀ d ∈ r.1, d < 2 ^ widthBits W := by
  unfold decodeBlock at h
  obtain ⟨D, -, h⟩ := bind_eq_ok h
  dsimp only at h
  split at h
  · obtain ⟨refs, -, h⟩ := bind_eq_ok h
    obtain ⟨lows, -, h⟩ := bind_eq_ok h
    obtain ⟨ex, hex, h⟩ := bind_eq_ok h
    cases h
    refine ⟨?_, ?_⟩
    · simpa using rdExceptions_length hex
    · intro d hd
      obtain ⟨v, -, rfl⟩ := List.mem_map.1 hd
      exact addMod_lt _ _ _
  · cases h

theorem decodeBlocks_length {W : Width} {isPatched : Bool} {k : Nat} {ws : List Word} {r : List Nat × List Word}
    (h : decodeBlocks W isPatched k ws = .ok r) : r.1.length = 128 * k := by
  induction k generalizing ws r with
  | zero => cases h; rfl
  | succ k ih =>
    obtain ⟨b, hb, h⟩ := bind_eq_ok h
    obtain ⟨q, hq, h⟩ := bind_eq_ok h
    cases h
    have := (decodeBlock_shape hb).1
    have := ih hq
    simp only [List.length_append]
    omega

theorem decodeTail_length {W : Width} {k : Nat} {cur : List Nat} {ws : List Word} {r : List Nat × List Word}
    (h : decodeTail W k cur ws = .ok r) : r.1.length = k := by
  induction k generalizing cur ws r with
  | zero => cases h; rfl
  | succ k ih =>
    obtain ⟨v, -, h⟩ := bind_eq_ok h
    obtain ⟨q, hq, h⟩ := bind_eq_ok h
    cases h
    simp [ih hq]

@[simp] theorem undelta_length (w prev : Nat) (ds : List Nat) : (undelta w prev ds).length = ds.length := by
  induction ds generalizing prev with
  | nil => rfl
  | cons d ds ih => simp [undelta, ih]

@[simp] theorem deltas_length (w prev : Nat) (xs : List Nat) : (deltas w prev xs).length = xs.length := by
  induction xs generalizing prev with
  | nil => rfl
  | cons x xs ih => simp [deltas, ih]

theorem undelta_lt {w prev : Nat} {ds : List Nat} : ∀ x ∈ undelta w prev ds, x < 2 ^ w := by
  induction ds generalizing prev with
  | nil => simp [undelta]
  | cons d ds ih =>
    intro x hx
    rcases List.mem_cons.1 hx with rfl | hx
    · exact addMod_lt _ _ _
    · exact ih x hx

/-- The blocks and the tail of an accepted length make the whole array (rule R132). -/
theorem blockCount_tailCount {p : Preset} {n : Nat} (h : n % blockReq p = 0) : 128 * blockCount p n + tailCount p n = n := by
  cases p <;> simp [blockCount, tailCount, blockStage, tailStage, blockReq] at * <;> omega

/-- A decoded stream has the expected number of elements, each below `2^W`. -/
theorem decodeStream_shape {W : Width} {p : Preset} {n : Nat} {ws : List Word} {xs : List Nat}
    (h : decodeStream W p n ws = .ok xs) (hn : n % blockReq p = 0) :
    xs.length = n ∧ ∀ x ∈ xs, x < 2 ^ widthBits W := by
  unfold decodeStream at h
  split at h
  · subst_vars
    split at h
    · cases h; simp
    · cases h
  · obtain ⟨hd, -, h⟩ := bind_eq_ok h
    obtain ⟨-, -, h⟩ := bind_eq_ok h
    obtain ⟨bl, hbl, h⟩ := bind_eq_ok h
    obtain ⟨tl, htl, h⟩ := bind_eq_ok h
    split at h
    · cases h
      refine ⟨?_, fun x hx => undelta_lt x hx⟩
      have h1 := decodeBlocks_length hbl
      have h2 := decodeTail_length htl
      have h3 := blockCount_tailCount hn
      simp only [undelta_length, List.length_append]
      omega
    · cases h

/-! ### The decoder's errors -/

/-- A step of a decoder that fails came from one of its two parts. -/
theorem bind_eq_error {ε α β : Type} {x : Except ε α} {f : α → Except ε β} {e : ε} (h : x.bind f = .error e) :
    x = .error e ∨ ∃ a, x = .ok a ∧ f a = .error e := by
  cases x with
  | error e' => cases h; exact .inl rfl
  | ok a => exact .inr ⟨a, rfl, h⟩

theorem rd_error {ws : List Word} {e : ErrCode} (h : rd ws = .error e) : e = .truncated := by
  cases ws with
  | nil => cases h; rfl
  | cons w ws => cases h

theorem rdMany_error {k : Nat} {ws : List Word} {e : ErrCode} (h : rdMany k ws = .error e) : e = .truncated := by
  rw [rdMany_eq] at h
  split at h
  · cases h
  · cases h; rfl

theorem checkHeader_error {W : Width} {p : Preset} {n : Nat} {w : Word} {e : ErrCode} (h : checkHeader W p n w = .error e) :
    e = .header ∨ e = .count := by
  unfold checkHeader at h
  split at h
  · cases h; exact .inl rfl
  · split at h
    · cases h; exact .inr rfl
    · cases h

theorem rdExceptions_error {b mb n : Nat} {low : List Nat} {ws : List Word} {e : ErrCode}
    (h : rdExceptions b mb n low ws = .error e) : e = .truncated ∨ e = .descriptor := by
  unfold rdExceptions at h
  split at h
  · cases h
  · rcases bind_eq_error h with h | ⟨pw, -, h⟩
    · exact .inl (rdMany_error h)
    · dsimp only at h
      split at h
      · rcases bind_eq_error h with h | ⟨hw, -, h⟩
        · exact .inl (rdMany_error h)
        · cases h
      · cases h; exact .inr rfl

theorem decodeBlock_error {W : Width} {isPatched : Bool} {ws : List Word} {e : ErrCode}
    (h : decodeBlock W isPatched ws = .error e) : e = .truncated ∨ e = .descriptor := by
  unfold decodeBlock at h
  rcases bind_eq_error h with h | ⟨D, -, h⟩
  · exact .inl (rd_error h)
  · dsimp only at h
    split at h
    · rcases bind_eq_error h with h | ⟨refs, -, h⟩
      · exact .inl (rdMany_error h)
      · rcases bind_eq_error h with h | ⟨lows, -, h⟩
        · exact .inl (rdMany_error h)
        · rcases bind_eq_error h with h | ⟨ex, -, h⟩
          · exact rdExceptions_error h
          · cases h
    · cases h; exact .inr rfl

theorem decodeBlocks_error {W : Width} {isPatched : Bool} {k : Nat} {ws : List Word} {e : ErrCode}
    (h : decodeBlocks W isPatched k ws = .error e) : e = .truncated ∨ e = .descriptor := by
  induction k generalizing ws with
  | zero => cases h
  | succ k ih =>
    rcases bind_eq_error h with h | ⟨r, -, h⟩
    · exact decodeBlock_error h
    · rcases bind_eq_error h with h | ⟨q, -, h⟩
      · exact ih h
      · cases h

/-- Reading from a new word takes its four bytes in their order (rules R52, R158). -/
theorem nextByte_word (w : Word) (ws : List Word) :
    nextByte [] (w :: ws) =
      .ok ((w.extractLsb' 0 8).toNat,
        [(w.extractLsb' 8 8).toNat, (w.extractLsb' 16 8).toNat, (w.extractLsb' 24 8).toNat], ws) := by
  simp [nextByte, rd, Except.bind, slice, Nat.shiftRight_eq_div_pow]

/-- The next byte is the first of the bytes left: those of the current word, then those of the words. -/
theorem nextByte_ok {cur : List Nat} {ws : List Word} {b : Nat} {rest : List Nat}
    (h : cur ++ (streamBytes ws).map BitVec.toNat = b :: rest) :
    ∃ cur' ws', nextByte cur ws = .ok (b, cur', ws') ∧ cur' ++ (streamBytes ws').map BitVec.toNat = rest := by
  cases cur with
  | cons c cs =>
    obtain ⟨rfl, rfl⟩ := List.cons.inj h
    exact ⟨cs, ws, rfl, rfl⟩
  | nil =>
    cases ws with
    | nil => cases h
    | cons w ws =>
      obtain ⟨rfl, rfl⟩ := List.cons.inj h
      exact ⟨_, ws, nextByte_word w ws, rfl⟩

theorem nextByte_error {cur : List Nat} {ws : List Word} {e : ErrCode} (h : nextByte cur ws = .error e) : e = .truncated := by
  unfold nextByte at h
  split at h
  · cases h
  · rcases bind_eq_error h with h | ⟨r, -, h⟩
    · exact rd_error h
    · cases h

theorem rdVarbyte_error {W : Width} {left k d : Nat} {cur : List Nat} {ws : List Word} {e : ErrCode}
    (h : rdVarbyte W left k d cur ws = .error e) : e = .truncated ∨ e = .varbyte := by
  induction left generalizing k d cur ws with
  | zero => cases h; exact .inr rfl
  | succ left ih =>
    rcases bind_eq_error h with h | ⟨r, -, h⟩
    · exact .inl (nextByte_error h)
    · split at h
      · cases h; exact .inr rfl
      · split at h
        · cases h
        · exact ih h

theorem decodeTail_error {W : Width} {k : Nat} {cur : List Nat} {ws : List Word} {e : ErrCode}
    (h : decodeTail W k cur ws = .error e) : e = .truncated ∨ e = .varbyte := by
  induction k generalizing cur ws with
  | zero => cases h
  | succ k ih =>
    rcases bind_eq_error h with h | ⟨v, -, h⟩
    · exact rdVarbyte_error h
    · rcases bind_eq_error h with h | ⟨q, -, h⟩
      · exact ih h
      · cases h

/-- The errors a stream can have (rule R178, step 4). -/
theorem decodeStream_error {W : Width} {p : Preset} {n : Nat} {ws : List Word} {e : ErrCode}
    (h : decodeStream W p n ws = .error e) :
    e ∈ [ErrCode.length, .truncated, .header, .count, .descriptor, .varbyte] := by
  unfold decodeStream at h
  split at h
  · split at h
    · cases h
    · cases h; simp
  · rcases bind_eq_error h with h | ⟨hd, -, h⟩
    · simp [rd_error h]
    · rcases bind_eq_error h with h | ⟨-, -, h⟩
      · rcases checkHeader_error h with rfl | rfl <;> simp
      · rcases bind_eq_error h with h | ⟨bl, -, h⟩
        · rcases decodeBlocks_error h with rfl | rfl <;> simp
        · rcases bind_eq_error h with h | ⟨tl, -, h⟩
          · rcases decodeTail_error h with rfl | rfl <;> simp
          · split at h
            · cases h
            · cases h; simp

/-- An error of a DEC command is never the code of success. -/
theorem decResult_error_ne_ok {W : Width} {s : State} {c : ErrCode} (h : s.decResult W = .error c) : c ≠ .ok := by
  unfold State.decResult at h
  rintro rfl
  split at h
  · cases h
  · split at h
    · cases h
    · split at h
      · cases h
      · have := decodeStream_error h
        simp at this

/-! ### Elements and words of a buffer -/

@[simp] theorem State.elements_length (s : State) (W : Width) (sp : Space) (n : Nat) : (s.elements W sp n).length = n := by
  simp [State.elements]

@[simp] theorem State.words_length (s : State) (sp : Space) (m : Nat) : (s.words sp m).length = m := by
  simp [State.words]

/-- `MemRead` of an element is the element as rule R51 writes it. -/
theorem State.memRead_element (s : State) (W : Width) (sp : Space) (i : Nat) :
    s.memRead sp (widthWords W * i) (widthWords W) = s.element W sp i := by
  cases W <;> simp [State.memRead, State.element, widthWords]

theorem State.element_lt (s : State) (W : Width) (sp : Space) (i : Nat) : s.element W sp i < 2 ^ widthBits W := by
  cases W
  · exact (s.word sp i).isLt
  · have h1 := (s.word sp (2 * i)).isLt
    have h2 := (s.word sp (2 * i + 1)).isLt
    simp only [State.element, widthBits]
    omega

/-- The array a codec command reads is the list of its elements. -/
theorem State.elements_eq (s : State) (W : Width) (sp : Space) (n : Nat) :
    s.elements W sp n = (List.range n).map (s.element W sp) := by
  simp [State.elements, State.memRead_element]

/-- A list with the elements of a buffer, one by one, is the array a codec command reads. -/
theorem State.elements_of_getD {s : State} {W : Width} {sp : Space} {n : Nat} {xs : List Nat} (hl : xs.length = n)
    (h : ∀ k, k < n → xs.getD k 0 = s.element W sp k) : s.elements W sp n = xs := by
  rw [State.elements_eq]
  refine List.ext_getElem (by simp [hl]) fun k h1 h2 => ?_
  have := h k (by omega)
  simp only [List.getD_eq_getElem?_getD, List.getElem?_eq_getElem h2, Option.getD_some] at this
  simp [this]

/-- A list with the words of a buffer, one by one, is the stream a codec command reads. -/
theorem State.words_of_getD {s : State} {sp : Space} {m : Nat} {ws : List Word} (hl : ws.length = m)
    (h : ∀ k, k < m → ws.getD k 0 = s.word sp k) : s.words sp m = ws := by
  refine List.ext_getElem (by simp [hl]) fun k h1 h2 => ?_
  have := h k (by omega)
  simp only [List.getD_eq_getElem?_getD, List.getElem?_eq_getElem h2, Option.getD_some] at this
  simp [State.words, this]

@[simp] theorem elementWords_length (W : Width) (x : Nat) : (elementWords W x).length = widthWords W := by
  simp [elementWords]

@[simp] theorem flatMap_elementWords_length (W : Width) (xs : List Nat) :
    (xs.flatMap (elementWords W)).length = widthWords W * xs.length := by
  induction xs with
  | nil => rfl
  | cons x xs ih => simp only [List.flatMap_cons, List.length_append, ih, elementWords_length, List.length_cons]; ring

/-- The array a codec command reads depends on the words of its elements alone. -/
theorem State.elements_congr {s t : State} {W : Width} {n : Nat} (h : SameWords .ibuf (widthWords W * n) s t) :
    s.elements W .ibuf n = t.elements W .ibuf n := by
  rw [State.elements_eq, State.elements_eq]
  refine List.map_congr_left fun i hi => ?_
  have hi := List.mem_range.1 hi
  cases W
  · simp only [State.element, widthWords] at h ⊢
    rw [h i (by omega)]
  · simp only [State.element, widthWords] at h ⊢
    rw [h (2 * i) (by omega), h (2 * i + 1) (by omega)]

/-- The stream a codec command reads depends on its words alone. -/
theorem State.words_congr {s t : State} {m : Nat} (h : SameWords .ibuf m s t) : s.words .ibuf m = t.words .ibuf m :=
  List.map_congr_left fun i hi => h i (List.mem_range.1 hi)

/-- What `ENC(W)` computes depends on what rule R40 says it reads. -/
theorem State.encResult_congr {s t : State} {W : Width} (hp : s.params = t.params) (h : SameEncInputs W s t) :
    s.encResult W = t.encResult W ∧ s.encStream W = t.encStream W := by
  obtain ⟨a, b, c, d⟩ := h
  have e : s.encStream W = t.encStream W := by
    rw [State.encStream, State.encStream, State.elements_congr d, a, b]
  exact ⟨by rw [State.encResult, State.encResult, e, hp, b, c, State.req, State.req, a], e⟩

/-- What `DEC(W)` computes depends on what rule R40 says it reads. -/
theorem State.decResult_congr {s t : State} {W : Width} (hp : s.params = t.params) (h : SameDecInputs s t) :
    s.decResult W = t.decResult W := by
  obtain ⟨a, b, c, d⟩ := h
  have e : s.decStream W = t.decStream W := by
    rw [State.decStream, State.decStream, State.words_congr d, a, b, c]
  rw [State.decResult, State.decResult, e, hp, b, c, State.req, State.req, a]

end Sys2Proof.Machine
end

