-- ==== Sys2Proof/Laws/Transact.lean ====
section
/-! SUPPORT. What a command word and a transaction can do, each said once, and what they leave alone. -/

namespace Sys2Proof.Machine

/-- Making a region unspecified and writing `STATUS` do not interfere. -/
theorem State.scrambleOutput_withStatus (s : State) (v : Word) (n : Nat) :
    (s.withStatus v).scrambleOutput n = (s.scrambleOutput n).withStatus v := by
  unfold State.scrambleOutput
  split <;> rfl

/-- What a command leaves of the state that no command changes (rules R36, R40). -/
theorem commandState_frame (i : Instr) (s : State) :
    (commandState i s).program = s.program ∧ (commandState i s).params = s.params ∧ (commandState i s).ibuf = s.ibuf ∧
    (commandState i s).response = s.response ∧ (commandState i s).nElems = s.nElems ∧ (commandState i s).encCap = s.encCap := by
  cases i with
  | setcodec imm8 => by_cases h : 3 < imm8.toNat <;> simp [commandState, h, State.raise, State.succeed]
  | enc32 => rcases encCommand_cases .w32 s with ⟨c, -, h⟩ | ⟨-, h⟩ <;> simp [commandState, h, State.failEnc_eq]
  | enc64 => rcases encCommand_cases .w64 s with ⟨c, -, h⟩ | ⟨-, h⟩ <;> simp [commandState, h, State.failEnc_eq]
  | dec32 => rcases decCommand_cases .w32 s with ⟨c, -, h⟩ | ⟨x, -, h⟩ <;> simp [commandState, h, State.failDec_eq]
  | dec64 => rcases decCommand_cases .w64 s with ⟨c, -, h⟩ | ⟨x, -, h⟩ <;> simp [commandState, h, State.failDec_eq]
  | _ => exact ⟨rfl, rfl, rfl, rfl, rfl, rfl⟩

theorem encCommand_status (W : Width) (s : State) : ∃ c, (encCommand W s).status = statusWord c := by
  rcases encCommand_cases W s with ⟨c, -, h⟩ | ⟨-, h⟩
  · exact ⟨c, by rw [h]; rfl⟩
  · exact ⟨.ok, by rw [h]; rfl⟩

theorem decCommand_status (W : Width) (s : State) : ∃ c, (decCommand W s).status = statusWord c := by
  rcases decCommand_cases W s with ⟨c, -, h⟩ | ⟨xs, -, h⟩
  · exact ⟨c, by rw [h]; rfl⟩
  · exact ⟨.ok, by rw [h]; rfl⟩

/-- The status a command leaves is the word of some code (rules R26, R201). -/
theorem commandState_status (i : Instr) (s : State) : ∃ c, (commandState i s).status = statusWord c := by
  cases i with
  | setcodec imm8 =>
    by_cases h : 3 < imm8.toNat
    · exact ⟨.selector, by simp [commandState, h, State.raise]⟩
    · exact ⟨.ok, by simp [commandState, h, State.succeed]⟩
  | enc32 => exact encCommand_status .w32 s
  | enc64 => exact encCommand_status .w64 s
  | dec32 => exact decCommand_status .w32 s
  | dec64 => exact decCommand_status .w64 s
  | _ => exact ⟨.ok, rfl⟩

/-- What executing a command word leaves (rules R86, R87). -/
def wordState (cw : Word) (s : State) : State :=
  match decode cw with
  | .ok i => commandState i s
  | .error _ => s.raise .illegalCmd

theorem runCommand_wordState (cw : Word) (s : State) : runCommand cw s = .next (wordState cw s) := runCommand_eq cw s

theorem wordState_frame (cw : Word) (s : State) :
    (wordState cw s).program = s.program ∧ (wordState cw s).params = s.params ∧ (wordState cw s).ibuf = s.ibuf ∧
    (wordState cw s).response = s.response ∧ (wordState cw s).nElems = s.nElems ∧ (wordState cw s).encCap = s.encCap := by
  unfold wordState
  split
  · exact commandState_frame _ s
  · exact ⟨rfl, rfl, rfl, rfl, rfl, rfl⟩

theorem wordState_status (cw : Word) (s : State) : ∃ c, (wordState cw s).status = statusWord c := by
  unfold wordState
  split
  · exact commandState_status _ s
  · exact ⟨.illegalCmd, rfl⟩

theorem regAt_cmd {k : Nat} (h : regAt k = some .cmd) : k = 0 := by
  unfold regAt at h
  split at h <;> first | rfl | cases h

/-- A register store changes no state but its register (rule R23). -/
theorem State.regStore_frame (s : State) (v : Word) (r : Reg) :
    (s.regStore v r).program = s.program ∧ (s.regStore v r).params = s.params ∧ (s.regStore v r).status = s.status ∧
    (s.regStore v r).codecSel = s.codecSel ∧ (s.regStore v r).ibuf = s.ibuf ∧ (s.regStore v r).obuf = s.obuf ∧
    (s.regStore v r).freeNext = s.freeNext := by
  cases r <;> exact ⟨rfl, rfl, rfl, rfl, rfl, rfl, rfl⟩

/-- Everything a transaction can do: execute a command word; reset; or answer, having changed nothing, one register or one buffer
word. -/
theorem transact_cases (t : Txn) (s : State) :
    (∃ v, t = .regWrite 0 v ∧ transact t s = .next ((wordState v s).withResponse .done)) ∨
    (t = .reset ∧ transact t s = .next (s.resetUnit.withResponse .done)) ∨
    (t ≠ .reset ∧ (∀ v, t ≠ .regWrite 0 v) ∧ ∃ u a, transact t s = .next (u.withResponse a) ∧
      (u = s ∨ (∃ v r, r ≠ .cmd ∧ u = s.regStore v r) ∨
        ∃ sp i v, i < s.params.size sp ∧ u = s.writeWord sp i v)) := by
  cases t with
  | reset => exact .inr (.inl ⟨rfl, rfl⟩)
  | regRead k => exact .inr (.inr ⟨by simp, by simp, s, _, rfl, .inl rfl⟩)
  | bufRead sp i => exact .inr (.inr ⟨by simp, by simp, s, _, rfl, .inl rfl⟩)
  | bufWrite sp i v =>
    refine .inr (.inr ⟨by simp, by simp, ?_⟩)
    by_cases h : i < s.params.size sp
    · exact ⟨s.writeWord sp i v, .done, by simp only [transact, State.bufWrite, h, if_true], .inr (.inr ⟨sp, i, v, h, rfl⟩)⟩
    · exact ⟨s, .busErr, by simp only [transact, State.bufWrite, h, if_false], .inl rfl⟩
  | regWrite k v =>
    by_cases hk : 16 ≤ k
    · refine .inr (.inr ⟨by simp, ?_, s, .busErr, by simp only [transact, State.regWrite, hk, if_true], .inl rfl⟩)
      rintro v h
      cases h
      omega
    · cases hr : regAt k with
      | none =>
        refine .inr (.inr ⟨by simp, ?_, s, .done, by simp only [transact, State.regWrite, hk, hr, if_false], .inl rfl⟩)
        rintro v h
        cases h
        cases hr
      | some r =>
        by_cases hc : r = .cmd
        · subst hc
          obtain rfl := regAt_cmd hr
          exact .inl ⟨v, rfl, by simp only [transact, State.regWrite, hk, hr, if_false, runCommand_wordState, answering]⟩
        · refine .inr (.inr ⟨by simp, ?_, s.regStore v r, .done, ?_, .inr (.inl ⟨v, r, hc, rfl⟩)⟩)
          · rintro v h
            cases h
            cases hr
            exact hc rfl
          · simp only [transact, State.regWrite, hk, hr, if_false]

/-- Every transaction is answered by a next state. -/
theorem transact_next (t : Txn) (s : State) : ∃ u a, transact t s = .next (State.withResponse u a) := by
  rcases transact_cases t s with ⟨v, -, e⟩ | ⟨-, e⟩ | ⟨-, -, u, a, e, -⟩
  · exact ⟨_, _, e⟩
  · exact ⟨_, _, e⟩
  · exact ⟨u, a, e⟩

/-! ### Runs -/

/-- A run of one more step. -/
theorem run_succ {s t : State} (h : step s = .next t) (k : Nat) :
    Host.Core.run Sys2Proof.core (k + 1) s = Host.Core.run Sys2Proof.core k t := by
  have h' : Sys2Proof.core.step s = .next t := h
  simp only [Host.Core.run, h']

/-- A run of two parts. -/
theorem run_add {s t : State} {a : Nat} (b : Nat) (h : Host.Core.run Sys2Proof.core a s = .next t) :
    Host.Core.run Sys2Proof.core (a + b) s = Host.Core.run Sys2Proof.core b t := by
  induction a generalizing s with
  | zero =>
    cases h
    rw [Nat.zero_add]
  | succ a ih =>
    cases hs : step s with
    | next u =>
      rw [run_succ hs] at h
      rw [Nat.add_right_comm, run_succ hs]
      exact ih h
    | fault r => cases r
    | refused r =>
      have hs' : Sys2Proof.core.step s = .refused r := hs
      simp only [Host.Core.run, hs'] at h
      cases h

end Sys2Proof.Machine
end

