-- ==== Sys2Proof/Tests/Slice0.lean ====
section
/-! SUPPORT. The model's own tests: words written out bit by bit from rules R81, R82 and R85, one ill-formed term for each check of
WellFormed, single steps with the results the spec's vectors give (their ids in brackets), and for every statement with
hypotheses a concrete state and operands that meet them. -/

namespace Sys2Proof.Tests

open Sys2Proof Sys2Proof.Machine

/-! ### Helpers -/

/-- The state a step ends in. -/
def after (o : Host.Outcome State Fault Refusal) : Option State :=
  match o with
  | .next s => some s
  | _ => none

/-- A buffer whose words from index 0 on are given. -/
def bufOf (ws : List Word) : Memory := { cells := cellsFrom 0 ws, fills := [], base := 0 }

/-- The state of an encoding vector: preset, words of IBUF, `N_ELEMS`, `ENC_CAP`. -/
def encState (sel : BitVec 2) (ws : List Word) (n cap : Word) : State :=
  (((State.reset.withCodecSel sel).withIbuf (bufOf ws)).withNElems n).withEncCap cap

/-- The state of a decoding vector: preset, words of IBUF, `N_ELEMS`, `ENC_LEN`. -/
def decState (sel : BitVec 2) (ws : List Word) (n m : Word) : State :=
  (((State.reset.withCodecSel sel).withIbuf (bufOf ws)).withNElems n).withEncLen m

/-- The state after reset with a voxel in the operand registers. -/
def voxelState (x y z : Half) (r g b : Byte) : State := (State.reset.withPosition x y z).withColour r g b

/-- The state after reset with one transaction pending. -/
def pending (t : Txn) : State := State.reset.withProgram [t]

/-- `STATUS`, `ENC_LEN` and the first words of OBUF after a command. -/
def outcome (i : Instr) (s : State) (m : Nat) : Option (Word × Word × List Word) :=
  (after (exec i s)).map fun t => (t.status, t.encLen, t.words .obuf m)

/-- `STATUS` after a command. -/
def statusAfter (i : Instr) (s : State) : Option Word := (after (exec i s)).map fun t => t.status

/-- `PK_HI:PK_LO` after a command. -/
def packedAfter (i : Instr) (s : State) : Option Nat := (after (exec i s)).map fun t => t.packed

/-- `PX`, `PY`, `PZ`, `CR`, `CG`, `CB` after a command. -/
def voxelAfter (i : Instr) (s : State) : Option (List Nat) :=
  (after (exec i s)).map fun t => [t.px.toNat, t.py.toNat, t.pz.toNat, t.cr.toNat, t.cg.toNat, t.cb.toNat]

/-! ### Decoding, words written out bit by bit -/

theorem test_decode_nop : decode 0b00000000000000000000000000000000 = .ok .nop := by decide
theorem test_decode_setcodec : decode 0b00000001000000000000000010100101 = .ok (.setcodec 0xA5) := by decide
theorem test_decode_enc32 : decode 0b00010000000000000000000000000000 = .ok .enc32 := by decide
theorem test_decode_enc64 : decode 0b00010001000000000000000000000000 = .ok .enc64 := by decide
theorem test_decode_dec32 : decode 0b00010010000000000000000000000000 = .ok .dec32 := by decide
theorem test_decode_dec64 : decode 0b00010011000000000000000000000000 = .ok .dec64 := by decide
theorem test_decode_pack64 : decode 0b00100000000000000000000000000000 = .ok .pack64 := by decide
theorem test_decode_pack32 : decode 0b00100001000000000000000000000000 = .ok .pack32 := by decide
theorem test_decode_unpack64 : decode 0b00100010000000000000000000000000 = .ok .unpack64 := by decide
theorem test_decode_unpack32 : decode 0b00100011000000000000000000000000 = .ok .unpack32 := by decide

/-- [CD2, CD3, CD8 to CD14] -/
theorem test_decode_illegal :
    decode 0x00000001 = .error .lowByte ∧ decode 0x00800000 = .error .zeroField ∧ decode 0x01000100 = .error .zeroField ∧
    decode 0x01800002 = .error .zeroField ∧ decode 0x02000000 = .error .unknownOpcode ∧
    decode 0x0F000000 = .error .unknownOpcode ∧ decode 0x10000001 = .error .lowByte ∧ decode 0x13000080 = .error .lowByte ∧
    decode 0x14000000 = .error .unknownOpcode ∧ decode 0x1F000000 = .error .unknownOpcode ∧
    decode 0x24000000 = .error .unknownOpcode ∧ decode 0x80000000 = .error .unknownOpcode ∧
    decode 0xFFFFFFFF = .error .zeroField ∧ decode 0x20000100 = .error .zeroField := by decide

theorem test_encode_words :
    encode .nop = 0x00000000 ∧ encode (.setcodec 3) = 0x01000003 ∧ encode .enc32 = 0x10000000 ∧ encode .enc64 = 0x11000000 ∧
    encode .dec32 = 0x12000000 ∧ encode .dec64 = 0x13000000 ∧ encode .pack64 = 0x20000000 ∧ encode .pack32 = 0x21000000 ∧
    encode .unpack64 = 0x22000000 ∧ encode .unpack32 = 0x23000000 := by decide

theorem test_table_word : decodeTableWord 32 0x01000002 = some (.setcodec 2) ∧ decodeTableWord 32 0x02000000 = none := by decide

/-- The word placed for the fetch is the one that runs. -/
theorem test_fetch_word :
    (after (step (State.reset.withFetchWord 32 0x01000003))).map (fun t => (t.codecSel, t.program)) = some (3, []) := by decide

/-! ### WellFormed, one refused term for each check -/

theorem test_params_too_small : Params.wf ⟨0, 1⟩ = false ∧ Params.wf ⟨1, 0⟩ = false := by decide
theorem test_params_too_large : Params.wf ⟨2 ^ 32, 1⟩ = false ∧ Params.wf ⟨1, 2 ^ 32⟩ = false := by decide
theorem test_params_ok : Params.wf ⟨1, 2 ^ 32 - 1⟩ = true ∧ Params.default.wf = true := by decide
theorem test_reg_transactions_refused :
    Txn.wf Params.default (.regRead 16) = false ∧ Txn.wf Params.default (.regWrite 16 0) = false := by decide
theorem test_buf_transactions_refused :
    Txn.wf ⟨4, 8⟩ (.bufRead .ibuf 4) = false ∧ Txn.wf ⟨4, 8⟩ (.bufWrite .obuf 8 0) = false := by decide
theorem test_transactions_ok :
    Txn.wf ⟨4, 8⟩ (.bufRead .obuf 7) = true ∧ Txn.wf ⟨4, 8⟩ (.regWrite 15 0) = true ∧ Txn.wf ⟨4, 8⟩ .reset = true := by decide
theorem test_line_cmd_refused : Line.wf (.wr .cmd 0) = false ∧ Line.wf (.wr .px (2 ^ 32)) = false := by decide
theorem test_line_numbers_refused :
    Line.wf (.obuf 0 (2 ^ 32)) = false ∧ Line.wf (.word (2 ^ 32)) = false ∧ Line.wf (.setpos (-(2 ^ 32)) 0 0) = false ∧
    Line.wf (.setcol 0 (2 ^ 32) 0) = false ∧ Line.wf (.setpk 0 (2 ^ 32)) = false := by decide
theorem test_line_lists_refused : Line.wf (.ibuf 0 []) = false ∧ Line.wf (.ibuf 0 [2 ^ 32]) = false := by decide
theorem test_line_counts_refused : Line.wf (.encp .w32 (2 ^ 28)) = false ∧ Line.wf (.decp .w64 (2 ^ 28)) = false := by decide
theorem test_line_ok : Line.wf (.wr .px (-10)) = true ∧ Line.wf (.ibuf 0 [5, 7, 300]) = true := by decide

/-! ### Program text -/

/-- Rule R91, SETPOS, with rule R90's reading of a negative number [P1]. -/
theorem test_setpos_expands :
    expandLine (.setpos (-10) 10 2000) =
      [.regWrite 8 0xFFFFFFF6, .regWrite 9 10, .regWrite 10 2000] := by decide

/-- Rule R91, DECP32 3 [P3]. -/
theorem test_decp_expands : expandLine (.decp .w32 3) = [.regWrite 3 128, .regWrite 0 0x12000000] := by decide

/-- Rule R91, ENCP64 127: two zero words, the padded count, the command. -/
theorem test_encp_expands :
    expandLine (.encp .w64 127) =
      [.bufWrite .ibuf 254 0, .bufWrite .ibuf 255 0, .regWrite 3 128, .regWrite 0 0x11000000] := by decide

/-! ### Single commands, expected results from the spec's vectors -/

/-- [CD1, with an error before it: rule R26] -/
theorem test_nop : (after (exec .nop (State.reset.raise .header))) = some State.reset := by decide

/-- [CD5, CD6, CD7] -/
theorem test_setcodec :
    (after (exec (.setcodec 3) (State.reset.withCodecSel 1))).map (fun t => (t.codecSel, t.status)) = some (3, 0) ∧
    (after (exec (.setcodec 4) (State.reset.withCodecSel 1))).map (fun t => (t.codecSel, t.status)) = some (1, 0x102) ∧
    (after (exec (.setcodec 255) (State.reset.withCodecSel 1))).map (fun t => (t.codecSel, t.status)) = some (1, 0x102) := by
  decide

/-- [PV3] -/
theorem test_pack64 : packedAfter .pack64 (voxelState 0xFFF6 10 2000 40 50 60) = some 0x3C32281F42014FF6 := by decide
/-- [PV11] -/
theorem test_pack64_extremes : packedAfter .pack64 (voxelState 0x7FFF 0x8000 0x7FFF 0x12 0x34 0x56) = some 0x563412FFFE000FFF := by
  decide
/-- [PV14] -/
theorem test_pack32 : packedAfter .pack32 (voxelState 100 0xFF38 5000 200 100 50) = some 0x3264C84E21E71064 := by decide
/-- [PV10] -/
theorem test_pack32_negative : packedAfter .pack32 (voxelState 0 0 0xFFFF 0 0 0) = some 0x000000FFFE001000 := by decide
/-- [UP4] -/
theorem test_unpack64 :
    voxelAfter .unpack64 (State.reset.withPacked 0x9ABCDEF0 0x12345678) = some [0x0EF0, 0x05E6, 0x1E26, 0x56, 0x34, 0x12] := by
  decide
/-- [UP5] -/
theorem test_unpack32 :
    voxelAfter .unpack32 (State.reset.withPacked 0x00000001 0x80000000) = some [0xF001, 0xF000, 0, 0, 0, 128] := by decide

/-- [EN20] -/
theorem test_enc32_tail :
    outcome .enc32 (encState 0 [4096, 4096, 4106, 4086, 1000, 2000] 6 1000) 5 =
      some (0, 5, [0x00000006, 0x0A002080, 0xFFFFFFEC, 0xFFE7F20F, 0x07E80FFF]) := by decide
/-- [EN17] -/
theorem test_enc32_block :
    outcome .enc32 (encState 0 (List.replicate 128 7) 128 1000) 5 =
      some (0, 5, [0x00000080, 0x00010300, 0x00000000, 0x00000000, 0x00000007]) := by decide +kernel
/-- [EN14] -/
theorem test_enc64_tail :
    outcome .enc64 (encState 0 [0xFFFFFFFF, 0xFFFFFFFF, 0, 0] 2 16) 4 =
      some (0, 4, [0x40000002, 0xFFFFFFFF, 0xFFFFFFFF, 0x000101FF]) := by decide
/-- [P4: the stream of EN14 does not fit three words] -/
theorem test_enc64_capacity : statusAfter .enc64 (encState 0 [0xFFFFFFFF, 0xFFFFFFFF, 0, 0] 2 3) = some 0x105 := by decide
/-- [DE1] -/
theorem test_dec32_tail : outcome .dec32 (decState 0 [0x00000003, 0x02A50205] 3 2) 3 = some (0, 2, [5, 7, 300]) := by decide
/-- [DE8] -/
theorem test_dec32_block :
    outcome .dec32 (decState 0 [0x00000080, 0x00020300, 0x00000000, 0x00000503, 0x0000003F] 128 5) 8 =
      some (0, 5, [0, 0, 0, 7, 7, 14, 14, 14]) := by decide +kernel
/-- [DE4] -/
theorem test_dec64_tail :
    outcome .dec64 (decState 0 [0x40000001, 0xFFFFFFFF, 0xFFFFFFFF, 0x000001FF] 1 4) 2 =
      some (0, 4, [0xFFFFFFFF, 0xFFFFFFFF]) := by decide
/-- [DE37, DE42, DE26] -/
theorem test_dec64_errors :
    statusAfter .dec64 (decState 0 [0x40000080, 0x00004100, 0, 0] 128 4) = some 0x108 ∧
    statusAfter .dec64 (decState 0 [0x40000001, 0xFFFFFFFF, 0xFFFFFFFF, 0x000002FF] 1 4) = some 0x109 ∧
    statusAfter .dec64 (decState 0 [0x00000003, 0x02A50205] 3 2) = some 0x107 := by decide

/-! ### Transactions -/

/-- [RG1, RG6, RG10] -/
theorem test_registers :
    (State.reset.regStore 0xFFFFF000 .px).regRead 8 = .value 0xFFFFF000 ∧
    (State.reset.regStore 0x000001FF .cr).regRead 11 = .value 0x000000FF ∧
    (State.reset.regStore 3 .codecSel).regRead 2 = .value 0 := by decide

/-- [RG15] -/
theorem test_bus_err :
    State.reset.regRead 16 = .busErr ∧ State.reset.bufRead .ibuf (2 ^ 21) = .busErr ∧
    (after (step (pending (.regWrite 99 1)))).map (fun t => t.response) = some (some .busErr) := by decide

/-- A write past a written word keeps the indices rising. -/
theorem test_buffer_order :
    ((((bufOf []).write 5 1).write 2 3).write 5 7).cells = [(2, 3), (5, 7)] := by decide

theorem test_reset_memory_wf :
    State.reset.ibuf.wf (2 ^ 21) 1 = true ∧ State.reset.obuf.wf (2 ^ 21) 1 = true := by decide

/-! ### Witnesses: the hypotheses of each statement can be met -/

theorem witness_ResetStateIsAsTabled : (0 : Nat) < 16 ∧ 15 < 16 := by decide

theorem witness_ResetTransactionResetsTheUnit : (pending .reset).program = .reset :: [] := by decide

theorem witness_IdleUnitKeepsItsState : State.reset.program = [] := by decide

theorem witness_StepRunsTheDecodedCommand :
    (pending (.regWrite 0 0x20000000)).program = .regWrite 0 0x20000000 :: [] ∧ decode 0x20000000 = .ok .pack64 ∧
    Instr.pack64.wf = true ∧
    ∃ t, exec .pack64 ((pending (.regWrite 0 0x20000000)).withProgram []) = .next t :=
  ⟨rfl, by decide, rfl, _, rfl⟩

theorem witness_EveryTransactionAdvancesTheProgram :
    (pending (.bufRead .ibuf (2 ^ 21))).program = .bufRead .ibuf (2 ^ 21) :: [] := by decide

theorem witness_DecodeAndEncodeAgree : (Instr.setcodec 0).wf = true ∧ (Instr.setcodec 255).wf = true := by decide

theorem witness_IllegalWordsChangeOnlyStatus :
    ∀ r ∈ opcodeTable, (0x11000001 : Word) &&& r.mask ≠ r.pattern := by decide

theorem witness_StatusDescribesTheLatestCommand :
    (pending (.regRead 0)).program = .regRead 0 :: [] ∧ (∀ v, Txn.regRead 0 ≠ .regWrite 0 v) ∧ Txn.regRead 0 ≠ .reset ∧
    ∃ u, step (pending (.regRead 0)) = .next u :=
  ⟨rfl, by simp, by decide, _, rfl⟩

theorem witness_EveryStepKeepsTheInvariant :
    (pending (.bufWrite .obuf (2 ^ 21 - 1) 7)).inv = true ∧ ∃ t, step (pending (.bufWrite .obuf (2 ^ 21 - 1) 7)) = .next t :=
  ⟨by decide, _, rfl⟩

theorem witness_NopOnlyClearsStatus : (0x00000001 : Word).extractLsb' 24 8 = 0 ∧ (0x00000001 : Word) ≠ 0 := by decide

theorem witness_OnlySetcodecChangesTheSelector :
    (∃ t, step (pending (.regWrite 0 0x01000003)) = .next t ∧ t.codecSel ≠ (pending (.regWrite 0 0x01000003)).codecSel) ∧
    ∃ t, step ((pending .reset).withCodecSel 3) = .next t ∧ t.codecSel ≠ ((pending .reset).withCodecSel 3).codecSel :=
  ⟨⟨_, rfl, by decide⟩, _, rfl, by decide⟩

theorem witness_BiasedFieldIsCutByMasking : (0 : Nat) ≤ 16 ∧ 16 ≤ 16 := by decide

theorem witness_PackWritesThePackedWord :
    ((4086 : Nat) : Int) = ((voxelState 0xFFF6 10 2000 40 50 60).px.toInt + 4096) % 2 ^ 13 ∧
    ((4106 : Nat) : Int) = ((voxelState 0xFFF6 10 2000 40 50 60).py.toInt + 4096) % 2 ^ 13 ∧
    ((2000 : Nat) : Int) = ((voxelState 0xFFF6 10 2000 40 50 60).pz.toInt + 0) % 2 ^ 14 ∧
    0x3C32281F42014FF6 = 4086 + 2 ^ 13 * 4106 + 2 ^ 26 * 2000 + 2 ^ 40 * 40 + 2 ^ 48 * 50 + 2 ^ 56 * 60 := by decide

theorem witness_PackedPairStraddlesZ : Instr.pack32 = .pack64 ∨ Instr.pack32 = .pack32 := by decide

theorem witness_UnpackWritesTheVoxel :
    (Instr.unpack32 = .unpack64 ∨ Instr.unpack32 = .unpack32) ∧
    0x8000000000000001 = (State.reset.withPacked 0x00000001 0x80000000).pkLo.toNat +
      2 ^ 32 * (State.reset.withPacked 0x00000001 0x80000000).pkHi.toNat := by decide

/-- The two corners of the domain [PV4, PV5]. -/
theorem witness_UnpackInvertsPack :
    ∀ s ∈ [voxelState 0xF000 0xF000 0 0 0 0, voxelState 0x0FFF 0x0FFF 0x3FFF 255 255 255],
      -4096 ≤ s.px.toInt ∧ s.px.toInt ≤ 4095 ∧ -4096 ≤ s.py.toInt ∧ s.py.toInt ≤ 4095 ∧ 0 ≤ s.pz.toInt ∧ s.pz.toInt ≤ 16383 := by
  decide

theorem witness_PackLanesDoNotInteract :
    ∃ t t', exec .pack64 (voxelState 1 2 3 4 5 6) = .next t ∧ exec .pack64 (voxelState 1 2 3 4 5 7) = .next t' ∧
      (voxelState 1 2 3 4 5 6).px = (voxelState 1 2 3 4 5 7).px ∧ (voxelState 1 2 3 4 5 6).cg = (voxelState 1 2 3 4 5 7).cg :=
  ⟨_, _, rfl, rfl, rfl, rfl⟩

theorem witness_RegReadReturnsTheRegister : (pending (.regRead 15)).program = .regRead 15 :: [] := by decide

/-- A concrete state for each of the eleven registers. -/
theorem witness_RegWriteKeepsTheLowBits :
    ∀ k ∈ [3, 4, 5, 8, 9, 10, 11, 12, 13, 14, 15], (pending (.regWrite k 0x12348000)).program = .regWrite k 0x12348000 :: [] := by
  decide

theorem witness_ReadOnlyAndReservedIgnoreWrites :
    ∀ k ∈ [1, 2, 6, 7], (k = 1 ∨ k = 2 ∨ k = 6 ∨ k = 7) ∧ (pending (.regWrite k 3)).program = .regWrite k 3 :: [] := by decide

theorem witness_BufReadReturnsTheWord :
    (pending (.bufRead .obuf (2 ^ 21 - 1))).program = .bufRead .obuf (2 ^ 21 - 1) :: [] ∧
    2 ^ 21 - 1 < (pending (.bufRead .obuf (2 ^ 21 - 1))).params.size .obuf := by decide

theorem witness_BufWriteSetsOneWord :
    (pending (.bufWrite .ibuf (2 ^ 21 - 1) 9)).program = .bufWrite .ibuf (2 ^ 21 - 1) 9 :: [] ∧
    2 ^ 21 - 1 < (pending (.bufWrite .ibuf (2 ^ 21 - 1) 9)).params.size .ibuf := by decide

/-- The least failing number or index of each clause. -/
theorem witness_BusErrChangesNothing :
    (16 ≤ 16 ∧ (pending (.regRead 16)).program = .regRead 16 :: []) ∧
    (16 ≤ 16 ∧ (pending (.regWrite 16 0x10000000)).program = .regWrite 16 0x10000000 :: []) ∧
    ((pending (.bufRead .ibuf (2 ^ 21))).params.size .ibuf ≤ 2 ^ 21 ∧
      (pending (.bufRead .ibuf (2 ^ 21))).program = .bufRead .ibuf (2 ^ 21) :: []) ∧
    (pending (.bufWrite .obuf (2 ^ 21) 1)).params.size .obuf ≤ 2 ^ 21 ∧
      (pending (.bufWrite .obuf (2 ^ 21) 1)).program = .bufWrite .obuf (2 ^ 21) 1 :: [] := by decide

/-- A success, an illegal word, and a failing command of each kind with the first index beyond its region. -/
theorem witness_CommandTwiceIsCommandOnce :
    (∃ t, runCommand 0x10000000 (encState 0 [5, 7, 300] 3 16) = .next t ∧ t.status = 0) ∧
    (∃ t, runCommand 0x11000001 State.reset = .next t ∧ t.status = 0x301 ∧
      ∀ W, decode 0x11000001 ≠ .ok (encInstr W) ∧ decode 0x11000001 ≠ .ok (decInstr W)) ∧
    (∃ t, runCommand 0x10000000 (encState 0 [5, 7, 300] 3 1) = .next t ∧ t.status = 0x105 ∧
      decode 0x10000000 = .ok (encInstr .w32) ∧ (encState 0 [5, 7, 300] 3 1).encRegion ≤ 1) ∧
    ∃ t, runCommand 0x13000000 (decState 0 [0x00000003, 0x02A50205] 3 2) = .next t ∧ t.status = 0x107 ∧
      decode 0x13000000 = .ok (decInstr .w64) ∧ (decState 0 [0x00000003, 0x02A50205] 3 2).decRegion (widthWords .w64) ≤ 6 :=
  ⟨⟨_, rfl, by decide⟩, ⟨_, rfl, by decide, by intro W; cases W <;> decide⟩, ⟨_, rfl, by decide, by decide, by decide⟩,
    _, rfl, by decide, by decide, by decide⟩

theorem witness_StreamBytesAreLittleEndian :
    (0 < [(0x04030201 : Word)].length ∧ 3 < 4) ∧ streamOfBytes [1, 2, 3] = none ∧
    streamBytes [0x04030201] = [1, 2, 3, 4] := by decide

/-- The stream of EN6, its capacity exactly met. -/
theorem witness_EncodeWritesTheStream :
    (encState 0 [5, 7, 300] 3 2).nElems.toNat ≤ 2 ^ 28 - 1 ∧
    widthWords .w32 * (encState 0 [5, 7, 300] 3 2).nElems.toNat ≤ (encState 0 [5, 7, 300] 3 2).params.ibufWords ∧
    (encState 0 [5, 7, 300] 3 2).nElems.toNat % (if (encState 0 [5, 7, 300] 3 2).codecSel = 2 then 128 else 1) = 0 ∧
    [5, 7, 300].length = (encState 0 [5, 7, 300] 3 2).nElems.toNat ∧
    (∀ k, k < (encState 0 [5, 7, 300] 3 2).nElems.toNat →
      [5, 7, 300].getD k 0 = (encState 0 [5, 7, 300] 3 2).element .w32 .ibuf k) ∧
    [0x00000003, 0x02A50205] = encodeStream .w32 (presetOf (encState 0 [5, 7, 300] 3 2).codecSel) [5, 7, 300] ∧
    [(0x00000003 : Word), 0x02A50205].length ≤ (encState 0 [5, 7, 300] 3 2).encCap.toNat ∧
    [(0x00000003 : Word), 0x02A50205].length ≤ (encState 0 [5, 7, 300] 3 2).params.obufWords ∧
    0 < (encState 0 [5, 7, 300] 3 2).nElems.toNat := by decide

/-- `E_CAPACITY` [EN5]. -/
theorem witness_EncodeFailsByTheFirstCheck_capacity :
    [5, 7, 300].length = (encState 0 [5, 7, 300] 3 1).nElems.toNat ∧
    (∀ k, k < (encState 0 [5, 7, 300] 3 1).nElems.toNat → [5, 7, 300].getD k 0 = (encState 0 [5, 7, 300] 3 1).element .w32 .ibuf k) ∧
    (0x105 : Word) =
      (if 2 ^ 28 - 1 < (encState 0 [5, 7, 300] 3 1).nElems.toNat ∨ (encState 0 [5, 7, 300] 3 1).params.ibufWords < widthWords .w32 * (encState 0 [5, 7, 300] 3 1).nElems.toNat then 0x103
      else if (encState 0 [5, 7, 300] 3 1).nElems.toNat % (if (encState 0 [5, 7, 300] 3 1).codecSel = 2 then 128 else 1) ≠ 0 then 0x104
      else if (encState 0 [5, 7, 300] 3 1).encCap.toNat < (encodeStream .w32 (presetOf (encState 0 [5, 7, 300] 3 1).codecSel) [5, 7, 300]).length ∨
        (encState 0 [5, 7, 300] 3 1).params.obufWords < (encodeStream .w32 (presetOf (encState 0 [5, 7, 300] 3 1).codecSel) [5, 7, 300]).length then 0x105
      else 0) ∧
    (0x105 : Word) ≠ 0 := by decide

/-- `E_BLOCKLEN`: one element under preset 2. -/
theorem witness_EncodeFailsByTheFirstCheck_blocklen :
    [7].length = (encState 2 [7] 1 9).nElems.toNat ∧
    (∀ k, k < (encState 2 [7] 1 9).nElems.toNat → [7].getD k 0 = (encState 2 [7] 1 9).element .w32 .ibuf k) ∧
    (0x104 : Word) =
      (if 2 ^ 28 - 1 < (encState 2 [7] 1 9).nElems.toNat ∨ (encState 2 [7] 1 9).params.ibufWords < widthWords .w32 * (encState 2 [7] 1 9).nElems.toNat then 0x103
      else if (encState 2 [7] 1 9).nElems.toNat % (if (encState 2 [7] 1 9).codecSel = 2 then 128 else 1) ≠ 0 then 0x104
      else if (encState 2 [7] 1 9).encCap.toNat < (encodeStream .w32 (presetOf (encState 2 [7] 1 9).codecSel) [7]).length ∨
        (encState 2 [7] 1 9).params.obufWords < (encodeStream .w32 (presetOf (encState 2 [7] 1 9).codecSel) [7]).length then 0x105
      else 0) ∧
    (0x104 : Word) ≠ 0 := by decide

/-- `E_RANGE`: a unit whose IBUF has one word, with an element of two. -/
theorem witness_EncodeFailsByTheFirstCheck_range :
    [7].length = ({ encState 0 [7, 0] 1 9 with params := ⟨1, 1⟩ } : State).nElems.toNat ∧
    (∀ k, k < ({ encState 0 [7, 0] 1 9 with params := ⟨1, 1⟩ } : State).nElems.toNat → [7].getD k 0 = ({ encState 0 [7, 0] 1 9 with params := ⟨1, 1⟩ } : State).element .w64 .ibuf k) ∧
    (0x103 : Word) =
      (if 2 ^ 28 - 1 < ({ encState 0 [7, 0] 1 9 with params := ⟨1, 1⟩ } : State).nElems.toNat ∨ ({ encState 0 [7, 0] 1 9 with params := ⟨1, 1⟩ } : State).params.ibufWords < widthWords .w64 * ({ encState 0 [7, 0] 1 9 with params := ⟨1, 1⟩ } : State).nElems.toNat then 0x103
      else if ({ encState 0 [7, 0] 1 9 with params := ⟨1, 1⟩ } : State).nElems.toNat % (if ({ encState 0 [7, 0] 1 9 with params := ⟨1, 1⟩ } : State).codecSel = 2 then 128 else 1) ≠ 0 then 0x104
      else if ({ encState 0 [7, 0] 1 9 with params := ⟨1, 1⟩ } : State).encCap.toNat < (encodeStream .w64 (presetOf ({ encState 0 [7, 0] 1 9 with params := ⟨1, 1⟩ } : State).codecSel) [7]).length ∨
        ({ encState 0 [7, 0] 1 9 with params := ⟨1, 1⟩ } : State).params.obufWords < (encodeStream .w64 (presetOf ({ encState 0 [7, 0] 1 9 with params := ⟨1, 1⟩ } : State).codecSel) [7]).length then 0x105
      else 0) ∧
    (0x103 : Word) ≠ 0 := by decide

/-- [DE1] -/
theorem witness_DecodeWritesTheElements :
    (decState 0 [0x00000003, 0x02A50205] 3 2).nElems.toNat ≤ 2 ^ 28 - 1 ∧
    (decState 0 [0x00000003, 0x02A50205] 3 2).encLen.toNat ≤ (decState 0 [0x00000003, 0x02A50205] 3 2).params.ibufWords ∧
    (decState 0 [0x00000003, 0x02A50205] 3 2).nElems.toNat %
      (if (decState 0 [0x00000003, 0x02A50205] 3 2).codecSel = 2 then 128 else 1) = 0 ∧
    widthWords .w32 * (decState 0 [0x00000003, 0x02A50205] 3 2).nElems.toNat ≤
      (decState 0 [0x00000003, 0x02A50205] 3 2).params.obufWords ∧
    [(0x00000003 : Word), 0x02A50205].length = (decState 0 [0x00000003, 0x02A50205] 3 2).encLen.toNat ∧
    (∀ k, k < (decState 0 [0x00000003, 0x02A50205] 3 2).encLen.toNat →
      [(0x00000003 : Word), 0x02A50205].getD k 0 = (decState 0 [0x00000003, 0x02A50205] 3 2).word .ibuf k) ∧
    decodeStream .w32 (presetOf (decState 0 [0x00000003, 0x02A50205] 3 2).codecSel) 3 [0x00000003, 0x02A50205] =
      .ok [5, 7, 300] := by decide

/-- The stream's own error after the three checks pass, here `E_COUNT` [DE13]. -/
theorem witness_DecodeFailsByTheFirstCheck_stream :
    ([0x00000003, 0x02A50205] : List Word).length = (decState 0 [0x00000003, 0x02A50205] 4 2).encLen.toNat ∧
    (∀ k, k < (decState 0 [0x00000003, 0x02A50205] 4 2).encLen.toNat → ([0x00000003, 0x02A50205] : List Word).getD k 0 = (decState 0 [0x00000003, 0x02A50205] 4 2).word .ibuf k) ∧
    (0x20A : Word) =
      (if 2 ^ 28 - 1 < (decState 0 [0x00000003, 0x02A50205] 4 2).nElems.toNat ∨ (decState 0 [0x00000003, 0x02A50205] 4 2).params.ibufWords < (decState 0 [0x00000003, 0x02A50205] 4 2).encLen.toNat then 0x103
      else if (decState 0 [0x00000003, 0x02A50205] 4 2).nElems.toNat % (if (decState 0 [0x00000003, 0x02A50205] 4 2).codecSel = 2 then 128 else 1) ≠ 0 then 0x104
      else if (decState 0 [0x00000003, 0x02A50205] 4 2).params.obufWords < widthWords .w32 * (decState 0 [0x00000003, 0x02A50205] 4 2).nElems.toNat then 0x105
      else match decodeStream .w32 (presetOf (decState 0 [0x00000003, 0x02A50205] 4 2).codecSel) (decState 0 [0x00000003, 0x02A50205] 4 2).nElems.toNat [0x00000003, 0x02A50205] with
        | .error e => statusWord e
        | .ok _ => 0) ∧
    (0x20A : Word) ≠ 0 := by decide

/-- `E_CAPACITY` [RC8], the stream left empty. -/
theorem witness_DecodeFailsByTheFirstCheck_capacity :
    ([] : List Word).length = (decState 0 [] 0x200001 0).encLen.toNat ∧
    (∀ k, k < (decState 0 [] 0x200001 0).encLen.toNat → ([] : List Word).getD k 0 = (decState 0 [] 0x200001 0).word .ibuf k) ∧
    (0x105 : Word) =
      (if 2 ^ 28 - 1 < (decState 0 [] 0x200001 0).nElems.toNat ∨ (decState 0 [] 0x200001 0).params.ibufWords < (decState 0 [] 0x200001 0).encLen.toNat then 0x103
      else if (decState 0 [] 0x200001 0).nElems.toNat % (if (decState 0 [] 0x200001 0).codecSel = 2 then 128 else 1) ≠ 0 then 0x104
      else if (decState 0 [] 0x200001 0).params.obufWords < widthWords .w32 * (decState 0 [] 0x200001 0).nElems.toNat then 0x105
      else match decodeStream .w32 (presetOf (decState 0 [] 0x200001 0).codecSel) (decState 0 [] 0x200001 0).nElems.toNat [] with
        | .error e => statusWord e
        | .ok _ => 0) ∧
    (0x105 : Word) ≠ 0 := by decide

/-- `E_BLOCKLEN` [RC10], the stream left empty. -/
theorem witness_DecodeFailsByTheFirstCheck_blocklen :
    ([] : List Word).length = (decState 2 [] 127 0).encLen.toNat ∧
    (∀ k, k < (decState 2 [] 127 0).encLen.toNat → ([] : List Word).getD k 0 = (decState 2 [] 127 0).word .ibuf k) ∧
    (0x104 : Word) =
      (if 2 ^ 28 - 1 < (decState 2 [] 127 0).nElems.toNat ∨ (decState 2 [] 127 0).params.ibufWords < (decState 2 [] 127 0).encLen.toNat then 0x103
      else if (decState 2 [] 127 0).nElems.toNat % (if (decState 2 [] 127 0).codecSel = 2 then 128 else 1) ≠ 0 then 0x104
      else if (decState 2 [] 127 0).params.obufWords < widthWords .w32 * (decState 2 [] 127 0).nElems.toNat then 0x105
      else match decodeStream .w32 (presetOf (decState 2 [] 127 0).codecSel) (decState 2 [] 127 0).nElems.toNat [] with
        | .error e => statusWord e
        | .ok _ => 0) ∧
    (0x104 : Word) ≠ 0 := by decide

/-- `E_RANGE` [RC7], the stream left empty. -/
theorem witness_DecodeFailsByTheFirstCheck_range :
    ([] : List Word).length = (decState 0 [] 0x10000000 0).encLen.toNat ∧
    (∀ k, k < (decState 0 [] 0x10000000 0).encLen.toNat → ([] : List Word).getD k 0 = (decState 0 [] 0x10000000 0).word .ibuf k) ∧
    (0x103 : Word) =
      (if 2 ^ 28 - 1 < (decState 0 [] 0x10000000 0).nElems.toNat ∨ (decState 0 [] 0x10000000 0).params.ibufWords < (decState 0 [] 0x10000000 0).encLen.toNat then 0x103
      else if (decState 0 [] 0x10000000 0).nElems.toNat % (if (decState 0 [] 0x10000000 0).codecSel = 2 then 128 else 1) ≠ 0 then 0x104
      else if (decState 0 [] 0x10000000 0).params.obufWords < widthWords .w32 * (decState 0 [] 0x10000000 0).nElems.toNat then 0x105
      else match decodeStream .w32 (presetOf (decState 0 [] 0x10000000 0).codecSel) (decState 0 [] 0x10000000 0).nElems.toNat [] with
        | .error e => statusWord e
        | .ok _ => 0) ∧
    (0x103 : Word) ≠ 0 := by decide

/-- Both sides of the equivalence, and both of the second clause. -/
theorem witness_ZeroLengthMeansEmptyOrFailed :
    (encState 0 [] 0 0).nElems = 0 ∧ outcome .enc32 (encState 0 [] 0 0) 0 = some (0, 0, []) ∧
    (encState 0 [5, 7, 300] 3 16).nElems ≠ 0 ∧ (encState 0 [5, 7, 300] 3 1).nElems ≠ 0 ∧
    statusAfter .enc32 (encState 0 [5, 7, 300] 3 1) = some 0x105 := by decide

/-- The array of EN1, encoded, and the stream copied to IBUF. -/
theorem witness_UnitRoundTrip :
    streamBound .w32 (presetOf (encState 0 [5, 7, 300] 3 16).codecSel) 3 ≤ (encState 0 [5, 7, 300] 3 16).encCap.toNat ∧
    (encState 0 [5, 7, 300] 3 16).encCap.toNat ≤ (encState 0 [5, 7, 300] 3 16).params.obufWords ∧
    ∃ t, exec (encInstr .w32) (encState 0 [5, 7, 300] 3 16) = .next t ∧ t.status = 0 ∧ t.encLen.toNat ≤ t.params.ibufWords ∧
      ∃ u : State, u.params = t.params ∧ u.nElems = t.nElems ∧ u.encLen = t.encLen ∧ u.codecSel = t.codecSel ∧
        ∀ k, k < t.encLen.toNat → u.word .ibuf k = t.word .obuf k :=
  ⟨by decide, by decide, _, rfl, by decide, by decide, decState 0 [0x00000003, 0x02A50205] 3 2,
    rfl, rfl, by decide, rfl, by decide⟩

theorem witness_ResultsDependOnInputsAlone :
    SameInputs .pack64 (voxelState 1 2 3 4 5 6) ((voxelState 1 2 3 4 5 6).withPacked 7 8) ∧
    SameInputs .enc32 (encState 0 [5, 7, 300] 3 16) ((encState 0 [5, 7, 300] 3 16).raise .header) ∧
    (∃ t, exec .enc32 (encState 0 [5, 7, 300] 3 16) = .next t) ∧
    ∃ t, exec .enc32 ((encState 0 [5, 7, 300] 3 16).raise .header) = .next t :=
  ⟨⟨rfl, rfl, rfl, rfl, rfl, rfl, rfl⟩, ⟨rfl, rfl, rfl, rfl, fun _ _ => rfl⟩, ⟨_, rfl⟩, _, rfl⟩

/-- An ENC command that writes two words over another OBUF. -/
theorem witness_CommandsReadIbufAndWriteObuf :
    (∃ t, exec .enc32 (encState 0 [5, 7, 300] 3 16) = .next t) ∧
    outcome .enc32 ((encState 0 [5, 7, 300] 3 16).withObuf (bufOf [1, 2, 3])) 3 = some (0, 2, [0x00000003, 0x02A50205, 3]) :=
  ⟨⟨_, rfl⟩, by decide⟩

/-- Two states whose IBUF differs beyond the stream of DE1. -/
theorem witness_DecoderReadsOnlyTheStream :
    decState 0 [0x00000003, 0x02A50205, 9] 3 2 =
      (decState 0 [0x00000003, 0x02A50205, 8] 3 2).withIbuf (decState 0 [0x00000003, 0x02A50205, 9] 3 2).ibuf ∧
    (∀ k, k < 2 → (decState 0 [0x00000003, 0x02A50205, 8] 3 2).word .ibuf k =
      (decState 0 [0x00000003, 0x02A50205, 9] 3 2).word .ibuf k) ∧
    (∃ t, exec (decInstr .w32) (decState 0 [0x00000003, 0x02A50205, 8] 3 2) = .next t) ∧
    ∃ t, exec (decInstr .w32) (decState 0 [0x00000003, 0x02A50205, 9] 3 2) = .next t :=
  ⟨rfl, by decide, ⟨_, rfl⟩, _, rfl⟩

/-- No element, one element, and a padded count above `MAX_N` in the largest unit. -/
theorem witness_PaddedEncodePreparesTheInput :
    (paddedCount 0 < 2 ^ 32 ∧ widthWords .w64 * paddedCount 0 ≤ State.reset.params.ibufWords) ∧
    (paddedCount 1 < 2 ^ 32 ∧ widthWords .w64 * paddedCount 1 ≤ State.reset.params.ibufWords) ∧
    paddedCount (2 ^ 28 + 1) < 2 ^ 32 ∧
    widthWords .w32 * paddedCount (2 ^ 28 + 1) ≤ ({ State.reset with params := ⟨2 ^ 32 - 1, 1⟩ } : State).params.ibufWords := by decide

theorem witness_PackbitsLayout :
    (3 ≤ 64 ∧ (∀ v ∈ [7, 0, 5], v < 2 ^ 3)) ∧ 8 < 32 * (packbits [7, 0, 5] 3).length ∧ 2 < 3 ∧
    packbits [7, 0, 5] 3 = [0b101000111] ∧ unpackbits [0xFFFFFF47] 3 3 = [7, 0, 5] := by decide

theorem witness_DeltaStageAndItsInverse :
    (∀ x ∈ [10, 9], x < 2 ^ widthBits .w32) ∧ 1 < [10, 9].length ∧ deltas 32 0 [10, 9] = [10, 0xFFFFFFFF] := by decide

theorem witness_ReferenceIsTheSignedMinimum :
    [3, 0xFFFFFFFF, 0xFFFFFFFF] ≠ [] ∧ (∀ d ∈ [3, 0xFFFFFFFF, 0xFFFFFFFF], d < 2 ^ widthBits .w32) ∧
    reference 32 [3, 0xFFFFFFFF, 0xFFFFFFFF] = 0xFFFFFFFF := by decide

theorem witness_MaxWidthOfABlock :
    [3, 0, 0xFFFFFFFD] ≠ [] ∧ (∀ d ∈ [3, 0, 0xFFFFFFFD], d < 2 ^ widthBits .w32) ∧
    3 = maxWidth (offsets (widthBits .w32) [3, 0, 0xFFFFFFFD]) := by decide

theorem witness_PackedWidthIsTheLargestCheapest :
    0 ≤ maxWidth [6, 3, 3, 0] ∧ cost [6, 3, 3, 0] 3 3 = 12 ∧ maxWidth [6, 3, 3, 0] = 3 := by decide

/-- The block of EN17, its deltas 7 and 127 zeros, under a patched preset. -/
theorem witness_ExceptionsOfABlock :
    (7 :: List.replicate 127 0).length = 128 ∧ (∀ d ∈ 7 :: List.replicate 127 0, d < 2 ^ widthBits .w32) ∧
    3 = maxWidth (offsets (widthBits .w32) (7 :: List.replicate 127 0)) ∧
    0 = packedWidth true (offsets (widthBits .w32) (7 :: List.replicate 127 0)) 3 ∧
    1 = excCount (offsets (widthBits .w32) (7 :: List.replicate 127 0)) 0 := by decide +kernel

/-- The constant block, of least length. -/
theorem witness_BlockLengthFormula :
    (List.replicate 128 9).length = 128 ∧ (∀ d ∈ List.replicate 128 9, d < 2 ^ widthBits .w64) ∧
    0 = maxWidth (offsets (widthBits .w64) (List.replicate 128 9)) ∧
    0 = packedWidth true (offsets (widthBits .w64) (List.replicate 128 9)) 0 ∧
    0 = excCount (offsets (widthBits .w64) (List.replicate 128 9)) 0 ∧
    ∀ d ∈ List.replicate 128 9, ∀ d' ∈ List.replicate 128 9, d = d' := by decide +kernel

theorem witness_VarbyteCodeIsShortest :
    0 < 2 ^ widthBits .w64 ∧ 2 ^ 64 - 1 < 2 ^ widthBits .w64 ∧ (varbyte .w64 (2 ^ 64 - 1)).length = 10 ∧
    varbyte .w32 293 = [0xA5, 2] := by decide

/-- The bytes in the words [DE40, DE43], and three of them in the current word [DE41]. -/
theorem witness_OverlongVarbyteIsRejected :
    ([] ++ (streamBytes [0xFFFFFFFF, 0x00000010]).map BitVec.toNat = [255, 255, 255, 255] ++ 0x10 :: [0, 0, 0] ∧
      [255, 255, 255, 255].length = vbMax .w32 - 1 ∧ (∀ b ∈ [255, 255, 255, 255], 128 ≤ b) ∧
      2 ^ (widthBits .w32 - 7 * (vbMax .w32 - 1)) ≤ 0x10) ∧
    ([] ++ (streamBytes [0xFFFFFFFF, 0xFFFFFFFF, 0x000081FF]).map BitVec.toNat = List.replicate 9 255 ++ 0x81 :: [0, 0] ∧
      (List.replicate 9 255).length = vbMax .w64 - 1 ∧ (∀ b ∈ List.replicate 9 255, 128 ≤ b) ∧ 128 ≤ 0x81) ∧
    [255, 255, 255] ++ (streamBytes [0x0000FFFF]).map BitVec.toNat = [255, 255, 255, 255] ++ 0xFF :: [0, 0] ∧ 128 ≤ 0xFF := by
  decide

/-- The three wrong headers [DE22, DE23, DE25] and the wrong count [DE13]. -/
theorem witness_HeaderIsTestedFirst :
    0 < 3 ∧ (0x80000003 : Word).getLsbD 31 = true ∧ ((0x30000003 : Word).extractLsb' 28 2).toNat ≠ presetSel .dpforVb ∧
    (0x40000003 : Word).getLsbD 30 ≠ decide (Width.w32 = .w64) ∧
    (0x00000003 : Word).getLsbD 31 = false ∧ ((0x00000003 : Word).extractLsb' 28 2).toNat = presetSel .dpforVb ∧
    (0x00000003 : Word).getLsbD 30 = decide (Width.w32 = .w64) ∧ ((0x00000003 : Word).extractLsb' 0 28).toNat ≠ 4 := by decide

/-- One descriptor for each of the eight conditions [DE30, DE28, DE29, DE33, DE31, DE32]. -/
theorem witness_InvalidDescriptorIsRejected :
    (0x00000080 : Word).getLsbD 7 = true ∧ (0x00008000 : Word).getLsbD 15 = true ∧ (0x01000000 : Word).extractLsb' 24 8 ≠ 0 ∧
    ((0x00000001 : Word).extractLsb' 8 7).toNat < ((0x00000001 : Word).extractLsb' 0 7).toNat ∧
    widthBits .w32 < ((0x00002100 : Word).extractLsb' 8 7).toNat ∧ 128 < ((0x00810300 : Word).extractLsb' 16 8).toNat ∧
    (0 < ((0x00010303 : Word).extractLsb' 16 8).toNat ∧
      ((0x00010303 : Word).extractLsb' 0 7).toNat = ((0x00010303 : Word).extractLsb' 8 7).toNat) ∧
    0 < ((0x00010300 : Word).extractLsb' 16 8).toNat := by decide

theorem witness_DecodeInvertsEncodeStream :
    [5, 7, 300].length ≤ 2 ^ 28 - 1 ∧ [5, 7, 300].length % blockReq .dforVb = 0 ∧ ∀ x ∈ [5, 7, 300], x < 2 ^ widthBits .w32 := by
  decide

theorem witness_StreamLengthUpperBound :
    0 < [2 ^ 64 - 1].length ∧ (∀ x ∈ [2 ^ 64 - 1], x < 2 ^ widthBits .w64) ∧ [2 ^ 64 - 1].length ≤ 2 ^ 28 - 1 ∧
    (encodeStream .w64 .dvb [2 ^ 64 - 1]).length = 4 := by decide

theorem witness_StreamLengthLowerBound :
    0 < [0].length ∧ [0].length % blockReq .dvb = 0 ∧ (encodeStream .w32 .dvb [0]).length = 2 := by decide

end Sys2Proof.Tests
end

section
/-! SUPPORT. Registers by number, what one step can do, the frame of a transaction, and the invariant (rules R20 to R30). -/

namespace Sys2Proof.Machine

/-! ### Registers by number -/

/-- A register's number is below 16, so that the host's access to it is no `BusErr` (rules R21, R59). -/
theorem regAt_lt {k : Nat} {r : Reg} (h : regAt k = some r) : k < 16 := by
  by_contra hk
  unfold regAt at h
  split at h <;> simp_all

/-- Reading a register's number returns the register's value (rule R24). -/
theorem State.regRead_of_regAt (s : State) {k : Nat} {r : Reg} (h : regAt k = some r) :
    s.regRead k = .value (s.regValue r) := by
  have hk : ¬ 16 ≤ k := Nat.not_le.2 (regAt_lt h)
  simp [State.regRead, hk, h]

/-- Reading a reserved number returns 0 (rule R22). -/
theorem State.regRead_reserved (s : State) {k : Nat} (hk : k < 16) (h : regAt k = none) : s.regRead k = .value 0 := by
  simp [State.regRead, Nat.not_le.2 hk, h]

/-- Every register holds 0 after reset (rule R39). -/
theorem State.reset_regValue (r : Reg) : State.reset.regValue r = 0 := by cases r <;> rfl

/-- A step that writes a register other than `CMD` stores the value in it (rule R23). -/
theorem step_regWrite_store {s : State} {k : Nat} {r : Reg} {v : Word} {ts : List Txn} (hp : s.program = .regWrite k v :: ts)
    (hr : regAt k = some r) (hc : r ≠ .cmd) : step s = .next (((s.withProgram ts).regStore v r).withResponse .done) := by
  have hk : ¬ 16 ≤ k := Nat.not_le.2 (regAt_lt hr)
  rw [step_transact hp]
  simp only [transact, State.regWrite, hk, hr, if_false]

/-- A step that writes a reserved number is done and stores nothing (rule R22). -/
theorem step_regWrite_reserved {s : State} {k : Nat} {v : Word} {ts : List Txn} (hp : s.program = .regWrite k v :: ts)
    (hk : k < 16) (hr : regAt k = none) : step s = .next ((s.withProgram ts).withResponse .done) := by
  rw [step_transact hp]
  simp only [transact, State.regWrite, Nat.not_le.2 hk, hr, if_false]

/-- A step that writes `CMD` runs the word (rule R25). -/
theorem step_regWrite_cmd {s : State} {cw : Word} {ts : List Txn} (hp : s.program = .regWrite 0 cw :: ts) :
    step s = answering .done (runCommand cw (s.withProgram ts)) := by
  rw [step_transact hp]
  rfl

/-! ### One step -/

/-- Everything a step can do: nothing, or the first pending transaction. -/
theorem step_cases {s u : State} (h : step s = .next u) :
    (s.program = [] ∧ u = s) ∨ ∃ t ts, s.program = t :: ts ∧ transact t (s.withProgram ts) = .next u := by
  cases hp : s.program with
  | nil =>
    rw [step_idle hp] at h
    cases h
    exact .inl ⟨rfl, rfl⟩
  | cons t ts => exact .inr ⟨t, ts, rfl, step_transact hp ▸ h⟩

/-- Writing a buffer word changes that buffer alone (rule R58). -/
theorem State.writeWord_frame (s : State) (sp : Space) (i : Nat) (v : Word) :
    (s.writeWord sp i v).program = s.program ∧ (s.writeWord sp i v).params = s.params ∧
    (s.writeWord sp i v).status = s.status ∧ (s.writeWord sp i v).codecSel = s.codecSel ∧
    (s.writeWord sp i v).freeNext = s.freeNext := by
  cases sp <;> exact ⟨rfl, rfl, rfl, rfl, rfl⟩

/-- No transaction changes the sizes or the rest of the list (rules R30, R38). -/
theorem transact_program_params {t : Txn} {s u : State} (h : transact t s = .next u) :
    u.program = s.program ∧ u.params = s.params := by
  rcases transact_cases t s with ⟨v, -, e⟩ | ⟨-, e⟩ | ⟨-, -, w, a, e, hw⟩ <;> cases e.symm.trans h
  case inl =>
    obtain ⟨hp, hq, -⟩ := wordState_frame v s
    exact ⟨hp, hq⟩
  case inr.inl => exact ⟨rfl, rfl⟩
  case inr.inr =>
    rcases hw with rfl | ⟨v, r, -, rfl⟩ | ⟨sp, i, v, -, rfl⟩
    · exact ⟨rfl, rfl⟩
    · obtain ⟨hp, hq, -⟩ := s.regStore_frame v r
      exact ⟨hp, hq⟩
    · obtain ⟨hp, hq, -⟩ := s.writeWord_frame sp i v
      exact ⟨hp, hq⟩

/-- Only a command or a reset changes `STATUS` or `CODEC_SEL` (rules R26, R28). -/
theorem transact_status_codecSel {t : Txn} {s u : State} (hc : ∀ v, t ≠ .regWrite 0 v) (hr : t ≠ .reset)
    (h : transact t s = .next u) : u.status = s.status ∧ u.codecSel = s.codecSel := by
  rcases transact_cases t s with ⟨v, e, -⟩ | ⟨e, -⟩ | ⟨-, -, w, a, e, hw⟩
  · exact absurd e (hc v)
  · exact absurd e hr
  · cases e.symm.trans h
    rcases hw with rfl | ⟨v, r, -, rfl⟩ | ⟨sp, i, v, -, rfl⟩
    · exact ⟨rfl, rfl⟩
    · obtain ⟨-, -, hs, hsel, -⟩ := s.regStore_frame v r
      exact ⟨hs, hsel⟩
    · obtain ⟨-, -, hs, hsel, -⟩ := s.writeWord_frame sp i v
      exact ⟨hs, hsel⟩

/-- SETCODEC by its immediate (rule R102). -/
theorem commandState_setcodec (imm8 : Byte) (s : State) :
    commandState (.setcodec imm8) s =
      if 3 < imm8.toNat then s.raise .selector else (s.withCodecSel (imm8.setWidth 2)).succeed := rfl

/-! ### The invariant -/

theorem State.inv_iff (s : State) :
    s.inv = true ↔ s.params.wf = true ∧ s.ibuf.wf s.params.ibufWords s.freeNext = true ∧
      s.obuf.wf s.params.obufWords s.freeNext = true ∧ s.status ∈ statusValues := by
  simp [State.inv, and_assoc]

/-- Writing a code's word to `STATUS` keeps the invariant (rule R27). -/
theorem State.inv_withStatus {s : State} (h : s.inv = true) (c : ErrCode) : (s.withStatus (statusWord c)).inv = true := by
  obtain ⟨hp, hi, ho, -⟩ := s.inv_iff.1 h
  exact (State.inv_iff _).2 ⟨hp, hi, ho, statusWord_mem c⟩

theorem State.inv_regStore {s : State} (h : s.inv = true) (v : Word) (r : Reg) : (s.regStore v r).inv = true := by
  obtain ⟨-, hp, hs, -, hi, ho, hf⟩ := s.regStore_frame v r
  rw [State.inv_iff] at h ⊢
  rwa [hp, hi, ho, hf, hs]

theorem State.inv_writeWord {s : State} (h : s.inv = true) {sp : Space} {i : Nat} (hi : i < s.params.size sp) (v : Word) :
    (s.writeWord sp i v).inv = true := by
  obtain ⟨hp, hib, hob, hs⟩ := s.inv_iff.1 h
  cases sp with
  | ibuf => exact (State.inv_iff _).2 ⟨hp, Memory.wf_write hib hi v, hob, hs⟩
  | obuf => exact (State.inv_iff _).2 ⟨hp, hib, Memory.wf_write hob hi v, hs⟩

theorem State.inv_writeOutput {s : State} (h : s.inv = true) {ws : List Word} (hl : ws.length ≤ s.params.obufWords) :
    (s.writeOutput ws).inv = true := by
  obtain ⟨hp, hi, ho, hs⟩ := s.inv_iff.1 h
  exact (State.inv_iff _).2 ⟨hp, hi, Memory.wf_writePrefix ho hl, hs⟩

theorem State.inv_scrambleOutput {s : State} (h : s.inv = true) {len : Nat} (hl : len ≤ s.params.obufWords) :
    (s.scrambleOutput len).inv = true := by
  unfold State.scrambleOutput
  split
  · exact h
  · next h0 =>
    obtain ⟨hp, hi, ho, hs⟩ := s.inv_iff.1 h
    exact (State.inv_iff _).2
      ⟨hp, Memory.wf_mono hi (Nat.le_succ _), Memory.wf_scramble ho (Nat.pos_of_ne_zero h0) hl, hs⟩

/-- A reset leaves a state of the invariant, whatever was before: only the sizes are kept (rules R39, R230). -/
theorem State.inv_resetUnit {s : State} (h : s.params.wf = true) : s.resetUnit.inv = true :=
  (State.inv_iff _).2 ⟨h, Memory.wf_unspecified _ _, Memory.wf_unspecified _ _, statusWord_mem .ok⟩

theorem inv_encCommand {W : Width} {s : State} (h : s.inv = true) : (encCommand W s).inv = true := by
  rcases encCommand_cases W s with ⟨c, -, e⟩ | ⟨hok, e⟩
  · rw [e]
    exact State.inv_withStatus (State.inv_scrambleOutput h (Nat.min_le_right _ _)) c
  · obtain ⟨-, -, -, -, hl⟩ := (encResult_ok_iff W s).1 hok
    rw [e]
    exact State.inv_withStatus (State.inv_writeOutput h hl) .ok

theorem inv_decCommand {W : Width} {s : State} (h : s.inv = true) : (decCommand W s).inv = true := by
  rcases decCommand_cases W s with ⟨c, -, e⟩ | ⟨xs, hok, e⟩
  · rw [e]
    exact State.inv_withStatus (State.inv_scrambleOutput h (Nat.min_le_right _ _)) c
  · obtain ⟨-, -, hreq, hcap, hdec⟩ := (decResult_ok_iff W s xs).1 hok
    have hlen : xs.length = s.nElems.toNat := (decodeStream_shape hdec hreq).1
    rw [e]
    exact State.inv_withStatus (State.inv_writeOutput h (by rwa [flatMap_elementWords_length, hlen])) .ok

theorem inv_commandState {s : State} (h : s.inv = true) (i : Instr) : (commandState i s).inv = true := by
  cases i with
  | enc32 => exact inv_encCommand h
  | enc64 => exact inv_encCommand h
  | dec32 => exact inv_decCommand h
  | dec64 => exact inv_decCommand h
  | setcodec imm8 =>
    rw [commandState_setcodec]
    split
    · exact State.inv_withStatus h .selector
    · exact State.inv_withStatus (s := s.withCodecSel _) h .ok
  | nop => exact State.inv_withStatus h .ok
  | pack64 => exact State.inv_withStatus (s := s.packVoxel) h .ok
  | pack32 => exact State.inv_withStatus (s := s.packVoxel) h .ok
  | unpack64 => exact State.inv_withStatus (s := s.unpackVoxel) h .ok
  | unpack32 => exact State.inv_withStatus (s := s.unpackVoxel) h .ok

theorem inv_wordState {s : State} (h : s.inv = true) (cw : Word) : (wordState cw s).inv = true := by
  unfold wordState
  split
  · exact inv_commandState h _
  · exact State.inv_withStatus h .illegalCmd

/-- Every transaction keeps the invariant. -/
theorem inv_transact {t : Txn} {s u : State} (hs : s.inv = true) (h : transact t s = .next u) : u.inv = true := by
  rcases transact_cases t s with ⟨v, -, e⟩ | ⟨-, e⟩ | ⟨-, -, w, a, e, hw⟩ <;> cases e.symm.trans h
  case inl => exact inv_wordState hs v
  case inr.inl => exact State.inv_resetUnit (s.inv_iff.1 hs).1
  case inr.inr =>
    rcases hw with rfl | ⟨v, r, -, rfl⟩ | ⟨sp, i, v, hi, rfl⟩
    · exact hs
    · exact State.inv_regStore hs v r
    · exact State.inv_writeWord hs hi v

end Sys2Proof.Machine
end

section
/-! SUPPORT. The decoder takes a command's own word only (rules R81 to R86). -/

namespace Sys2Proof.Machine

/-! ### The word of a command -/

/-- A word is made of its three fields (rule R83). -/
theorem fields_append (cw : Word) : opField cw ++ (zeroField cw ++ imm8Field cw) = cw := by
  have h : zeroField cw ++ imm8Field cw = cw.extractLsb' 0 24 :=
    BitVec.extractLsb'_append_extractLsb'_eq_extractLsb' rfl
  rw [h]
  exact (BitVec.extractLsb'_append_extractLsb'_eq_extractLsb' rfl).trans BitVec.extractLsb'_eq_self

/-- The command of an opcode has that opcode, and its immediate is the one given or, outside SETCODEC, 0 (rule R85). -/
theorem instrOfOpcode_some {op imm8 : Byte} {i : Instr} (h : instrOfOpcode op imm8 = some i) :
    opcode i = op ∧ (immediate i = imm8 ∨ op ≠ 0x01 ∧ immediate i = 0) := by
  unfold instrOfOpcode at h
  split at h <;> cases h <;> simp_all [opcode, immediate, BitVec.toNat_eq]

/-- A word that decodes is the word of its command (rule R86). -/
theorem encode_of_decode {cw : Word} {i : Instr} (h : decode cw = .ok i) : encode i = cw := by
  unfold decode at h
  split at h
  · cases h
  · next hz =>
    split at h
    · cases h
    · next j hj =>
      split at h
      · cases h
      · next hl =>
        cases h
        obtain ⟨hop, himm⟩ := instrOfOpcode_some hj
        have himm : immediate i = imm8Field cw := by
          rcases himm with e | ⟨hne, e⟩
          · exact e
          · rw [e]
            by_contra hne'
            exact hl ⟨hne, Ne.symm hne'⟩
        have hz : zeroField cw = 0#16 := not_not.1 hz
        rw [encode, hop, himm, ← hz, fields_append]

end Sys2Proof.Machine
end

section
/-! SUPPORT. What the outcome of a command depends on: not `STATUS`, not OBUF, and otherwise only the operands of rule R40; and which
command writes `CODEC_SEL`. -/

namespace Sys2Proof.Machine

/-! ### The codec procedures by their result -/

theorem encCommand_of_error {W : Width} {s : State} {c : ErrCode} (h : s.encResult W = .error c) :
    encCommand W s = s.failEnc c := by
  rw [encCommand, h]

theorem encCommand_of_ok {W : Width} {s : State} {S : List Word} (h : s.encResult W = .ok S) :
    encCommand W s = ((s.writeOutput S).withEncLen (BitVec.ofNat 32 S.length)).succeed := by
  rw [encCommand, h]

theorem decCommand_of_error {W : Width} {s : State} {c : ErrCode} (h : s.decResult W = .error c) :
    decCommand W s = s.failDec (widthWords W) c := by
  rw [decCommand, h]

theorem decCommand_of_ok {W : Width} {s : State} {xs : List Nat} (h : s.decResult W = .ok xs) :
    decCommand W s = (s.writeOutput (xs.flatMap (elementWords W))).succeed := by
  rw [decCommand, h]

/-! ### No command reads `STATUS` -/

theorem State.failEnc_withStatus (s : State) (v : Word) (c : ErrCode) : (s.withStatus v).failEnc c = s.failEnc c := by
  rw [State.failEnc, State.scrambleOutput_withStatus]
  rfl

theorem State.failDec_withStatus (s : State) (v : Word) (K : Nat) (c : ErrCode) :
    (s.withStatus v).failDec K c = s.failDec K c := by
  rw [State.failDec, State.scrambleOutput_withStatus]
  rfl

theorem encCommand_withStatus (W : Width) (s : State) (v : Word) : encCommand W (s.withStatus v) = encCommand W s := by
  have hv : (s.withStatus v).encResult W = s.encResult W :=
    (State.encResult_congr (s := s.withStatus v) (t := s) rfl ⟨rfl, rfl, rfl, fun _ _ => rfl⟩).1
  cases h : s.encResult W with
  | error c => rw [encCommand_of_error h, encCommand_of_error (hv.trans h), State.failEnc_withStatus]
  | ok S =>
    rw [encCommand_of_ok h, encCommand_of_ok (hv.trans h)]
    rfl

theorem decCommand_withStatus (W : Width) (s : State) (v : Word) : decCommand W (s.withStatus v) = decCommand W s := by
  have hv : (s.withStatus v).decResult W = s.decResult W :=
    State.decResult_congr (s := s.withStatus v) (t := s) rfl ⟨rfl, rfl, rfl, fun _ _ => rfl⟩
  cases h : s.decResult W with
  | error c => rw [decCommand_of_error h, decCommand_of_error (hv.trans h), State.failDec_withStatus]
  | ok xs =>
    rw [decCommand_of_ok h, decCommand_of_ok (hv.trans h)]
    rfl

/-- What a command leaves does not depend on the `STATUS` before it (rules R26, R210). -/
theorem commandState_withStatus (i : Instr) (s : State) (v : Word) : commandState i (s.withStatus v) = commandState i s := by
  cases i with
  | enc32 => exact encCommand_withStatus .w32 s v
  | enc64 => exact encCommand_withStatus .w64 s v
  | dec32 => exact decCommand_withStatus .w32 s v
  | dec64 => exact decCommand_withStatus .w64 s v
  | setcodec imm8 =>
    rw [commandState_setcodec, commandState_setcodec]
    split <;> rfl
  | _ => rfl

theorem wordState_withStatus (cw : Word) (s : State) (v : Word) : wordState cw (s.withStatus v) = wordState cw s := by
  unfold wordState
  split
  · exact commandState_withStatus _ s v
  · rfl

/-! ### Only SETCODEC writes `CODEC_SEL` -/

theorem encCommand_codecSel (W : Width) (s : State) : (encCommand W s).codecSel = s.codecSel := by
  rcases encCommand_cases W s with ⟨c, -, h⟩ | ⟨-, h⟩ <;> simp [h, State.failEnc_eq]

theorem decCommand_codecSel (W : Width) (s : State) : (decCommand W s).codecSel = s.codecSel := by
  rcases decCommand_cases W s with ⟨c, -, h⟩ | ⟨xs, -, h⟩ <;> simp [h, State.failDec_eq]

/-- A successful SETCODEC leaves its immediate in `CODEC_SEL` and 0 in `STATUS` (rules R28, R102). -/
theorem commandState_setcodec_ok {imm8 : Byte} (h : imm8.toNat ≤ 3) (s : State) :
    (commandState (.setcodec imm8) s).codecSel.toNat = imm8.toNat ∧ (commandState (.setcodec imm8) s).status = 0 := by
  rw [commandState_setcodec, if_neg (Nat.not_lt.2 h)]
  refine ⟨?_, rfl⟩
  change (imm8.setWidth 2).toNat = imm8.toNat
  rw [BitVec.toNat_setWidth]
  omega

/-- A command that changes `CODEC_SEL` is a SETCODEC with an immediate up to 3 (rules R28, R40). -/
theorem setcodec_of_codecSel_ne {i : Instr} {s : State} (h : (commandState i s).codecSel ≠ s.codecSel) :
    ∃ imm8 : Byte, i = .setcodec imm8 ∧ imm8.toNat ≤ 3 := by
  cases i with
  | setcodec imm8 =>
    refine ⟨imm8, rfl, ?_⟩
    by_contra hi
    rw [commandState_setcodec, if_pos (Nat.not_le.1 hi)] at h
    exact h rfl
  | enc32 => exact absurd (encCommand_codecSel .w32 s) h
  | enc64 => exact absurd (encCommand_codecSel .w64 s) h
  | dec32 => exact absurd (decCommand_codecSel .w32 s) h
  | dec64 => exact absurd (decCommand_codecSel .w64 s) h
  | _ => exact absurd rfl h

/-- A command word that changes `CODEC_SEL` is that of a SETCODEC with an immediate up to 3, and takes effect so. -/
theorem wordState_codecSel_ne {cw : Word} {s : State} (h : (wordState cw s).codecSel ≠ s.codecSel) :
    ∃ imm8 : Byte, cw = encode (.setcodec imm8) ∧ imm8.toNat ≤ 3 ∧ (wordState cw s).codecSel.toNat = imm8.toNat ∧
      (wordState cw s).status = 0 := by
  unfold wordState at h ⊢
  cases hd : decode cw with
  | error e => exact absurd (by rw [hd]; rfl) h
  | ok i =>
    simp only [hd] at h ⊢
    obtain ⟨imm8, rfl, hi⟩ := setcodec_of_codecSel_ne h
    exact ⟨imm8, (encode_of_decode hd).symm, hi, commandState_setcodec_ok hi s⟩

/-! ### No command reads OBUF -/

/-- With another OBUF the update leaves the same outside OBUF, and each word of OBUF is afterwards the same as well, or kept (rule
R36). -/
def ObufIndependent (f : State → State) : Prop :=
  ∀ (s : State) (m : Memory), f (s.withObuf m) = (f s).withObuf (f (s.withObuf m)).obuf ∧
    ∀ k, (f (s.withObuf m)).word .obuf k = (f s).word .obuf k ∨
      ((f s).word .obuf k = s.word .obuf k ∧ (f (s.withObuf m)).word .obuf k = (s.withObuf m).word .obuf k)

/-- An update that neither reads nor writes OBUF. -/
theorem obufIndependent_of_keeps {f : State → State} (hf : ∀ s m, f (s.withObuf m) = (f s).withObuf m)
    (hk : ∀ s, (f s).obuf = s.obuf) : ObufIndependent f := by
  intro s m
  rw [hf]
  exact ⟨rfl, fun k => .inr ⟨State.word_congr (sp := .obuf) (hk s) k, rfl⟩⟩

/-- Making a region unspecified carries nothing of OBUF's contents out of OBUF. -/
theorem State.scrambleOutput_withObuf (s : State) (m : Memory) (n : Nat) :
    (s.withObuf m).scrambleOutput n = (s.scrambleOutput n).withObuf ((s.withObuf m).scrambleOutput n).obuf := by
  unfold State.scrambleOutput
  split <;> rfl

theorem State.failEnc_withObuf (s : State) (m : Memory) (c : ErrCode) :
    (s.withObuf m).failEnc c = (s.failEnc c).withObuf ((s.withObuf m).failEnc c).obuf :=
  congrArg (fun t => (t.withEncLen 0).raise c) (s.scrambleOutput_withObuf m s.encRegion)

theorem State.failDec_withObuf (s : State) (m : Memory) (K : Nat) (c : ErrCode) :
    (s.withObuf m).failDec K c = (s.failDec K c).withObuf ((s.withObuf m).failDec K c).obuf :=
  congrArg (fun t => t.raise c) (s.scrambleOutput_withObuf m (s.decRegion K))

theorem obufIndependent_writeOutput (ws : List Word) : ObufIndependent (State.writeOutput · ws) := by
  refine fun s m => ⟨rfl, fun k => ?_⟩
  by_cases hk : k < ws.length <;> simp [State.word_writeOutput, hk]

theorem obufIndependent_failEnc (c : ErrCode) : ObufIndependent (State.failEnc · c) := by
  refine fun s m => ⟨s.failEnc_withObuf m c, fun k => ?_⟩
  have hr : (s.withObuf m).encRegion = s.encRegion := rfl
  by_cases hk : k < s.encRegion <;> simp [State.word_failEnc, hr, hk]

theorem obufIndependent_failDec (K : Nat) (c : ErrCode) : ObufIndependent (State.failDec · K c) := by
  refine fun s m => ⟨s.failDec_withObuf m K c, fun k => ?_⟩
  have hr : (s.withObuf m).decRegion K = s.decRegion K := rfl
  by_cases hk : k < s.decRegion K <;> simp [State.word_failDec, hr, hk]

theorem obufIndependent_encCommand (W : Width) : ObufIndependent (encCommand W) := by
  intro s m
  have hm : (s.withObuf m).encResult W = s.encResult W :=
    (State.encResult_congr (s := s.withObuf m) (t := s) rfl ⟨rfl, rfl, rfl, fun _ _ => rfl⟩).1
  cases h : s.encResult W with
  | error c =>
    rw [encCommand_of_error h, encCommand_of_error (hm.trans h)]
    exact obufIndependent_failEnc c s m
  | ok S =>
    rw [encCommand_of_ok h, encCommand_of_ok (hm.trans h)]
    exact ⟨rfl, (obufIndependent_writeOutput S s m).2⟩

theorem obufIndependent_decCommand (W : Width) : ObufIndependent (decCommand W) := by
  intro s m
  have hm : (s.withObuf m).decResult W = s.decResult W :=
    State.decResult_congr (s := s.withObuf m) (t := s) rfl ⟨rfl, rfl, rfl, fun _ _ => rfl⟩
  cases h : s.decResult W with
  | error c =>
    rw [decCommand_of_error h, decCommand_of_error (hm.trans h)]
    exact obufIndependent_failDec (widthWords W) c s m
  | ok xs =>
    rw [decCommand_of_ok h, decCommand_of_ok (hm.trans h)]
    exact ⟨rfl, (obufIndependent_writeOutput _ s m).2⟩

theorem obufIndependent_commandState (i : Instr) : ObufIndependent (commandState i) := by
  cases i with
  | enc32 => exact obufIndependent_encCommand .w32
  | enc64 => exact obufIndependent_encCommand .w64
  | dec32 => exact obufIndependent_decCommand .w32
  | dec64 => exact obufIndependent_decCommand .w64
  | setcodec imm8 =>
    refine obufIndependent_of_keeps (fun s m => ?_) fun s => ?_
    · rw [commandState_setcodec, commandState_setcodec]
      split <;> rfl
    · rw [commandState_setcodec]
      split <;> rfl
  | _ => exact obufIndependent_of_keeps (fun _ _ => rfl) fun _ => rfl

/-! ### Equal inputs give equal results -/

/-- Two states given the same output agree on its words. -/
theorem sameWords_writeOutput (s t : State) (ws : List Word) :
    SameWords .obuf ws.length (s.writeOutput ws) (t.writeOutput ws) := by
  intro k hk
  simp [State.word_writeOutput, hk]

/-- From equal operands `ENC(W)` leaves the same `STATUS` and `ENC_LEN` and, on success, the same stream (rules R37, R40). -/
theorem encCommand_sameResults {W : Width} {s t : State} (hp : s.params = t.params) (h : SameEncInputs W s t) :
    (encCommand W s).status = (encCommand W t).status ∧ (encCommand W s).encLen = (encCommand W t).encLen ∧
    SameWords .obuf (encCommand W s).encLen.toNat (encCommand W s) (encCommand W t) := by
  obtain ⟨hr, -⟩ := State.encResult_congr hp h
  cases hs : s.encResult W with
  | error c =>
    rw [encCommand_of_error hs, encCommand_of_error (hr.symm.trans hs)]
    exact ⟨rfl, rfl, fun k hk => absurd hk (Nat.not_lt_zero k)⟩
  | ok S =>
    rw [encCommand_of_ok hs, encCommand_of_ok (hr.symm.trans hs)]
    exact ⟨rfl, rfl, fun k hk => sameWords_writeOutput s t S k (Nat.lt_of_lt_of_le hk (Nat.mod_le _ _))⟩

/-- From equal operands `DEC(W)` leaves the same `STATUS` and, on success, the same elements (rules R37, R40). -/
theorem decCommand_sameResults {W : Width} {s t : State} (hp : s.params = t.params) (h : SameDecInputs s t) :
    (decCommand W s).status = (decCommand W t).status ∧ ((decCommand W s).status = 0 →
      SameWords .obuf (widthWords W * (decCommand W s).nElems.toNat) (decCommand W s) (decCommand W t)) := by
  have hr := State.decResult_congr (W := W) hp h
  cases hs : s.decResult W with
  | error c =>
    rw [decCommand_of_error hs, decCommand_of_error (hr.symm.trans hs)]
    exact ⟨rfl, fun h0 => absurd ((statusWord_eq_zero c).1 h0) (decResult_error_ne_ok hs)⟩
  | ok xs =>
    obtain ⟨-, -, hreq, -, hdec⟩ := (decResult_ok_iff W s xs).1 hs
    have hlen : (xs.flatMap (elementWords W)).length = widthWords W * s.nElems.toNat := by
      rw [flatMap_elementWords_length, (decodeStream_shape hdec hreq).1]
    rw [decCommand_of_ok hs, decCommand_of_ok (hr.symm.trans hs)]
    exact ⟨rfl, fun _ k hk => sameWords_writeOutput s t _ k (hlen ▸ hk)⟩

/-- The packed word depends on the operand registers alone (rule R40). -/
theorem packVoxel_congr {s t : State} (h : SameVoxel s t) :
    s.packVoxel.pkLo = t.packVoxel.pkLo ∧ s.packVoxel.pkHi = t.packVoxel.pkHi := by
  obtain ⟨hx, hy, hz, hr, hg, hb⟩ := h
  simp [State.packVoxel_eq, hx, hy, hz, hr, hg, hb]

/-- The unpacked voxel depends on `PK_LO` and `PK_HI` alone (rule R40). -/
theorem unpackVoxel_congr {s t : State} (h : s.pkLo = t.pkLo ∧ s.pkHi = t.pkHi) : SameVoxel s.unpackVoxel t.unpackVoxel := by
  have hP : s.packed = t.packed := by rw [State.packed, State.packed, h.1, h.2]
  simp [SameVoxel, State.unpackVoxel, hP]

/-- What a command leaves in the places it writes depends on the places it reads (rules R37, R40). -/
theorem commandState_sameResults {i : Instr} {s t : State} (h : SameInputs i s t) :
    SameResults i (commandState i s) (commandState i t) := by
  obtain ⟨hp, h⟩ := h
  cases i with
  | nop => exact ⟨rfl, trivial⟩
  | setcodec imm8 =>
    rw [commandState_setcodec, commandState_setcodec]
    split
    · exact ⟨rfl, fun h0 => by cases (statusWord_eq_zero _).1 h0⟩
    · exact ⟨rfl, fun _ => rfl⟩
  | enc32 =>
    obtain ⟨hst, hlen, hw⟩ := encCommand_sameResults hp h
    exact ⟨hst, hlen, fun _ => hw⟩
  | enc64 =>
    obtain ⟨hst, hlen, hw⟩ := encCommand_sameResults hp h
    exact ⟨hst, hlen, fun _ => hw⟩
  | dec32 =>
    obtain ⟨hst, hw⟩ := decCommand_sameResults (W := .w32) hp h
    exact ⟨hst, fun h0 k hk => hw h0 k (hk.trans_eq (Nat.one_mul _).symm)⟩
  | dec64 => exact decCommand_sameResults (W := .w64) hp h
  | pack64 => exact ⟨rfl, packVoxel_congr h⟩
  | pack32 => exact ⟨rfl, packVoxel_congr h⟩
  | unpack64 => exact ⟨rfl, unpackVoxel_congr h⟩
  | unpack32 => exact ⟨rfl, unpackVoxel_congr h⟩

end Sys2Proof.Machine
end

section
/-! SUPPORT. The statements about the state of the unit (10_state.md), settled from the rules above. -/

namespace Sys2Proof.Proofs

open Sys2Proof.Machine

/-! ### Invariants and what a command depends on -/

/-- Settles O12: the invariant is kept by each transaction, and a step is at most one transaction. -/
theorem everyStepKeepsTheInvariant : Obligations.EveryStepKeepsTheInvariant := by
  intro s t hs h
  rcases step_cases h with ⟨-, rfl⟩ | ⟨x, ts, -, h⟩
  · exact hs
  · exact inv_transact (s := s.withProgram ts) hs h

/-- Settles O11: a command overwrites `STATUS` without reading it, and the frame of every other transaction but reset holds it. -/
theorem statusDescribesTheLatestCommand : Obligations.StatusDescribesTheLatestCommand := by
  constructor
  · intro cw v s
    rw [runCommand_wordState, runCommand_wordState, wordState_withStatus]
  · intro s u t ts hp hc hr h
    rw [step_transact hp] at h
    exact (transact_status_codecSel hc hr h).1

/-- Settles O16: by cases over the pending transaction; among the command words only those of SETCODEC with 0..3 write the
selector. -/
theorem onlySetcodecChangesTheSelector : Obligations.OnlySetcodecChangesTheSelector := by
  intro s t h hne
  rcases step_cases h with ⟨-, rfl⟩ | ⟨x, ts, hp, h⟩
  · exact absurd rfl hne
  · rcases transact_cases x (s.withProgram ts) with ⟨cw, rfl, e⟩ | ⟨rfl, -⟩ | ⟨hr, hc, -⟩
    · cases e.symm.trans h
      obtain ⟨imm8, rfl, hi, hsel, hst⟩ := wordState_codecSel_ne hne
      exact .inl ⟨imm8, ts, hp, hi, hsel, hst⟩
    · exact .inr ⟨ts, hp⟩
    · exact absurd (transact_status_codecSel hc hr h).2 hne

/-- Settles O39: each command's results are functions of the operands of rule R40. -/
theorem resultsDependOnInputsAlone : Obligations.ResultsDependOnInputsAlone := by
  intro i s s' t t' h ht ht'
  obtain rfl := (exec_next_iff i s t).1 ht
  obtain rfl := (exec_next_iff i s' t').1 ht'
  exact commandState_sameResults h

/-- Settles O40: IBUF is in the frame of every command, and every command treats OBUF as output alone. -/
theorem commandsReadIbufAndWriteObuf : Obligations.CommandsReadIbufAndWriteObuf := by
  intro i s t m ht
  obtain rfl := (exec_next_iff i s t).1 ht
  obtain ⟨-, -, hibuf, -⟩ := commandState_frame i s
  exact ⟨hibuf, commandState i (s.withObuf m), exec_eq i _, obufIndependent_commandState i s m⟩

/-! ### Reset, stepping and status words -/

/-- Settles O1: each number is reserved or names a register, and each register is 0. -/
theorem resetStateIsAsTabled : Obligations.ResetStateIsAsTabled := by
  refine ⟨fun k hk => ?_, rfl, rfl, rfl, rfl, rfl, rfl, rfl, rfl, rfl, rfl, rfl, rfl, rfl, fun sp i => ?_⟩
  · cases h : regAt k with
    | none => exact State.reset.regRead_reserved hk h
    | some r => rw [State.reset.regRead_of_regAt h, State.reset_regValue]
  · cases sp <;> exact Memory.read_unspecified 0 _ i

/-- Settles O3. -/
theorem idleUnitKeepsItsState : Obligations.IdleUnitKeepsItsState := fun _ => step_idle

/-- Settles O4: a write to `CMD` runs its word, and a word that decodes runs its command. -/
theorem stepRunsTheDecodedCommand : Obligations.StepRunsTheDecodedCommand := by
  intro s cw ts hp
  have hstep := step_regWrite_cmd hp
  refine ⟨hstep, fun i hd _ => ?_⟩
  have hrun : runCommand cw (s.withProgram ts) = exec i (s.withProgram ts) := by rw [runCommand, hd]
  rw [hstep, hrun]
  exact ⟨rfl, fun t ht => by rw [ht]; rfl⟩

/-- Settles O5: every transaction is answered by a next state, with the list and the sizes in its frame. -/
theorem everyTransactionAdvancesTheProgram : Obligations.EveryTransactionAdvancesTheProgram := by
  intro s t ts hp
  obtain ⟨u, a, h⟩ := transact_next t (s.withProgram ts)
  obtain ⟨hprog, hparams⟩ := transact_program_params h
  exact ⟨u.withResponse a, (step_transact hp).trans h, hprog, hparams, Option.some_ne_none a⟩

/-- Settles O10: the twelve words of the table, then the two fields code by code. -/
theorem statusWordsAreAsTabled : Obligations.StatusWordsAreAsTabled := by
  refine ⟨rfl, rfl, rfl, rfl, rfl, rfl, rfl, rfl, rfl, rfl, rfl, rfl, fun c => ?_⟩
  cases c <;> decide

/-- Settles O13: legal default sizes, two buffers with nothing written, and `STATUS` 0. -/
theorem resetMeetsTheInvariant : Obligations.ResetMeetsTheInvariant :=
  State.reset.inv_iff.2 ⟨by decide, State.reset_ibuf_wf, State.reset_obuf_wf, statusWord_mem .ok⟩

/-! ### Registers by number -/

/-- Settles O25: a read answers with the register's value, whose extensions are those of rule R24. -/
theorem regReadReturnsTheRegister : Obligations.RegReadReturnsTheRegister := by
  constructor
  · intro s k ts hp
    exact step_transact hp
  · intro s
    simp only [BitVec.ofNat_toNat]
    exact ⟨s.regRead_of_regAt (r := .cmd) rfl, s.regRead_of_regAt (r := .status) rfl, s.regRead_of_regAt (r := .codecSel) rfl,
      s.regRead_of_regAt (r := .nElems) rfl, s.regRead_of_regAt (r := .encCap) rfl, s.regRead_of_regAt (r := .encLen) rfl,
      s.regRead_reserved (by decide) rfl, s.regRead_reserved (by decide) rfl,
      s.regRead_of_regAt (r := .px) rfl, s.regRead_of_regAt (r := .py) rfl, s.regRead_of_regAt (r := .pz) rfl,
      s.regRead_of_regAt (r := .cr) rfl, s.regRead_of_regAt (r := .cg) rfl, s.regRead_of_regAt (r := .cb) rfl,
      s.regRead_of_regAt (r := .pkLo) rfl, s.regRead_of_regAt (r := .pkHi) rfl⟩

/-- Settles O26: each of the eleven numbers names a register that a write stores to; the low bits of the value are its reading modulo
2 to the register's width. -/
theorem regWriteKeepsTheLowBits : Obligations.RegWriteKeepsTheLowBits := by
  intro s v ts
  simp only [BitVec.ofNat_toNat]
  exact ⟨fun hp => step_regWrite_store (r := .nElems) hp rfl (by decide),
    fun hp => step_regWrite_store (r := .encCap) hp rfl (by decide),
    fun hp => step_regWrite_store (r := .encLen) hp rfl (by decide),
    fun hp => step_regWrite_store (r := .px) hp rfl (by decide),
    fun hp => step_regWrite_store (r := .py) hp rfl (by decide),
    fun hp => step_regWrite_store (r := .pz) hp rfl (by decide),
    fun hp => step_regWrite_store (r := .cr) hp rfl (by decide),
    fun hp => step_regWrite_store (r := .cg) hp rfl (by decide),
    fun hp => step_regWrite_store (r := .cb) hp rfl (by decide),
    fun hp => step_regWrite_store (r := .pkLo) hp rfl (by decide),
    fun hp => step_regWrite_store (r := .pkHi) hp rfl (by decide)⟩

/-- Settles O27: numbers 1 and 2 name registers that store nothing, 6 and 7 are reserved. -/
theorem readOnlyAndReservedIgnoreWrites : Obligations.ReadOnlyAndReservedIgnoreWrites := by
  rintro s k v ts (rfl | rfl | rfl | rfl) hp
  · exact step_regWrite_store (r := .status) hp rfl (by decide)
  · exact step_regWrite_store (r := .codecSel) hp rfl (by decide)
  · exact step_regWrite_reserved hp (by decide) rfl
  · exact step_regWrite_reserved hp (by decide) rfl

end Sys2Proof.Proofs
end

section
/-! SUPPORT. The memory rules (20_memory.md): a buffer access by its index, streams as bytes, and what repeating a command changes. -/

namespace Sys2Proof.Machine

/-! ### A buffer access in or out of range -/

theorem State.bufRead_of_lt {s : State} {sp : Space} {i : Nat} (h : i < s.params.size sp) :
    s.bufRead sp i = .value (s.word sp i) := if_pos h

theorem State.bufRead_of_le {s : State} {sp : Space} {i : Nat} (h : s.params.size sp ≤ i) : s.bufRead sp i = .busErr :=
  if_neg (Nat.not_lt.2 h)

theorem State.bufWrite_of_lt {s : State} {sp : Space} {i : Nat} (h : i < s.params.size sp) (v : Word) :
    s.bufWrite sp i v = (s.writeWord sp i v).withResponse .done := if_pos h

theorem State.bufWrite_of_le {s : State} {sp : Space} {i : Nat} (h : s.params.size sp ≤ i) (v : Word) :
    s.bufWrite sp i v = s.withResponse .busErr := if_neg (Nat.not_lt.2 h)

theorem State.regRead_of_le (s : State) {k : Nat} (h : 16 ≤ k) : s.regRead k = .busErr := if_pos h

theorem State.regWrite_of_le (s : State) {k : Nat} (h : 16 ≤ k) (v : Word) : s.regWrite k v = .next (s.withResponse .busErr) :=
  if_pos h

theorem step_bufRead {s : State} {sp : Space} {i : Nat} {ts : List Txn} (hp : s.program = .bufRead sp i :: ts) :
    step s = .next ((s.withProgram ts).withResponse (s.bufRead sp i)) := step_transact hp

theorem step_bufWrite {s : State} {sp : Space} {i : Nat} {v : Word} {ts : List Txn} (hp : s.program = .bufWrite sp i v :: ts) :
    step s = .next ((s.withProgram ts).bufWrite sp i v) := step_transact hp

/-- Writing a buffer word changes the buffers alone. -/
theorem State.writeWord_eq (s : State) (sp : Space) (i : Nat) (v : Word) :
    s.writeWord sp i v = (s.withIbuf (s.writeWord sp i v).ibuf).withObuf (s.writeWord sp i v).obuf := by
  cases sp <;> rfl

/-! ### Streams as bytes -/

/-- The four bytes of a word, the highest first, are the word (rule R50). -/
theorem wordBytes_append (w : Word) :
    w.extractLsb' 24 8 ++ (w.extractLsb' 16 8 ++ (w.extractLsb' 8 8 ++ w.extractLsb' 0 8)) = w := by
  have h16 : w.extractLsb' 8 8 ++ w.extractLsb' 0 8 = w.extractLsb' 0 16 := BitVec.extractLsb'_append_extractLsb'_eq_extractLsb' rfl
  have h24 : w.extractLsb' 16 8 ++ w.extractLsb' 0 16 = w.extractLsb' 0 24 := BitVec.extractLsb'_append_extractLsb'_eq_extractLsb' rfl
  have h32 : w.extractLsb' 24 8 ++ w.extractLsb' 0 24 = w.extractLsb' 0 32 := BitVec.extractLsb'_append_extractLsb'_eq_extractLsb' rfl
  rw [h16, h24, h32, BitVec.extractLsb'_eq_self]

@[simp] theorem wordBytes_length (w : Word) : (wordBytes w).length = 4 := rfl

/-- Byte `j` of a word holds its bits `8j+7 : 8j` (rule R50). -/
theorem wordBytes_getD (w : Word) {j : Nat} (hj : j < 4) :
    ((wordBytes w).getD j 0).toNat = w.toNat / 2 ^ (8 * j) % 2 ^ 8 := by
  have hbyte : (wordBytes w).getD j 0 = w.extractLsb' (8 * j) 8 := by
    match j, hj with
    | 0, _ | 1, _ | 2, _ | 3, _ => rfl
  rw [hbyte, BitVec.extractLsb'_toNat, Nat.shiftRight_eq_div_pow]

@[simp] theorem streamBytes_cons (w : Word) (ws : List Word) : streamBytes (w :: ws) = wordBytes w ++ streamBytes ws := rfl

@[simp] theorem streamBytes_length (ws : List Word) : (streamBytes ws).length = 4 * ws.length := by
  induction ws with
  | nil => rfl
  | cons w ws ih =>
    rw [streamBytes_cons, List.length_append, ih, wordBytes_length, List.length_cons]
    omega

/-- Byte `4k + j` of a stream is byte `j` of its word `k` (rule R50). -/
theorem streamBytes_getD {ws : List Word} {k j : Nat} (hk : k < ws.length) (hj : j < 4) :
    (streamBytes ws).getD (4 * k + j) 0 = (wordBytes (ws.getD k 0)).getD j 0 := by
  induction ws generalizing k with
  | nil => exact absurd hk (Nat.not_lt_zero k)
  | cons w ws ih =>
    rw [streamBytes_cons]
    cases k with
    | zero =>
      rw [Nat.mul_zero, Nat.zero_add, List.getD_append _ _ _ _ (by rwa [wordBytes_length])]
      rfl
    | succ k =>
      rw [List.getD_append_right _ _ _ _ (by rw [wordBytes_length]; omega), wordBytes_length,
        show 4 * (k + 1) + j - 4 = 4 * k + j by omega, ih (Nat.lt_of_succ_lt_succ hk)]
      rfl

/-- A stream stored as bytes is loaded back (rules R50, R53). -/
theorem streamOfBytes_streamBytes (ws : List Word) : streamOfBytes (streamBytes ws) = some ws := by
  induction ws with
  | nil => rfl
  | cons w ws ih =>
    rw [streamBytes_cons, wordBytes]
    simp only [List.cons_append, List.nil_append, streamOfBytes, ih, wordBytes_append]

/-- Bytes are no stream exactly when their count is not a multiple of 4 (rule R53). -/
theorem streamOfBytes_eq_none_iff (bs : List Byte) : streamOfBytes bs = none ↔ bs.length % 4 ≠ 0 := by
  induction bs using streamOfBytes.induct with
  | case1 => simp [streamOfBytes]
  | case2 a b c d rest ws hws ih => simpa [streamOfBytes, hws, Nat.add_assoc] using ih
  | case3 a b c d rest hnone ih => simpa [streamOfBytes, hnone, Nat.add_assoc] using ih
  | case4 bs hnil hcons =>
    match bs, hnil, hcons with
    | [_], _, _ | [_, _], _, _ | [_, _, _], _, _ => simp [streamOfBytes]
    | [], hnil, _ => exact absurd rfl hnil
    | a :: b :: c :: d :: rest, _, hcons => exact absurd rfl (hcons a b c d rest)

/-! ### A command leaves its own operands -/

/-- Writing the same words again from index 0 on changes nothing, not even the buffer's form. -/
theorem Memory.writePrefix_writePrefix (m : Memory) (ws : List Word) : (m.writePrefix ws).writePrefix ws = m.writePrefix ws := by
  have hnew : (cellsFrom 0 ws).filter (fun c => decide (ws.length ≤ c.1)) = [] := by
    refine List.filter_eq_nil_iff.2 fun c hc => ?_
    have := mem_cellsFrom hc
    simp only [decide_eq_true_eq]
    omega
  simp [Memory.writePrefix, List.filter_append, hnew]

theorem State.writeOutput_writeOutput (s : State) (ws : List Word) : (s.writeOutput ws).writeOutput ws = s.writeOutput ws :=
  congrArg s.withObuf (s.obuf.writePrefix_writePrefix ws)

theorem commandState_encInstr (W : Width) (s : State) : commandState (encInstr W) s = encCommand W s := by cases W <;> rfl

theorem commandState_decInstr (W : Width) (s : State) : commandState (decInstr W) s = decCommand W s := by cases W <;> rfl

/-- `DEC(W)` does not write `ENC_LEN` (rule R40). -/
theorem decCommand_encLen (W : Width) (s : State) : (decCommand W s).encLen = s.encLen := by
  rcases decCommand_cases W s with ⟨c, -, h⟩ | ⟨xs, -, h⟩ <;> simp [h, State.failDec_eq]

/-- `ENC(W)` leaves what it reads, so that it computes the same again (rule R40). -/
theorem encResult_encCommand (W : Width) (s : State) : (encCommand W s).encResult W = s.encResult W := by
  obtain ⟨-, hp, hi, -, hn, hc⟩ := commandState_frame (encInstr W) s
  rw [commandState_encInstr] at hp hi hn hc
  exact (State.encResult_congr hp ⟨encCommand_codecSel W s, hn, hc, fun k _ => State.word_congr (sp := .ibuf) hi k⟩).1

/-- `DEC(W)` leaves what it reads, so that it computes the same again (rule R40). -/
theorem decResult_decCommand (W : Width) (s : State) : (decCommand W s).decResult W = s.decResult W := by
  obtain ⟨-, hp, hi, -, hn, -⟩ := commandState_frame (decInstr W) s
  rw [commandState_decInstr] at hp hi hn
  exact State.decResult_congr hp
    ⟨decCommand_codecSel W s, hn, decCommand_encLen W s, fun k _ => State.word_congr (sp := .ibuf) hi k⟩

/-! ### Repeating a command -/

/-- `u` is `t`, but for the words of OBUF below `n` and the event counter. -/
def SameButOutput (n : Nat) (t u : State) : Prop :=
  u = (t.withObuf u.obuf).withFreeNext u.freeNext ∧ ∀ k, n ≤ k → u.word .obuf k = t.word .obuf k

theorem sameButOutput_refl (n : Nat) (t : State) : SameButOutput n t t := ⟨rfl, fun _ _ => rfl⟩

theorem sameButOutput_scrambleOutput (t : State) (n : Nat) : SameButOutput n t (t.scrambleOutput n) :=
  ⟨t.scrambleOutput_frame n, fun k hk => by rw [State.word_scrambleOutput, if_neg (Nat.not_lt.2 hk)]⟩

/-- Where `ENC_LEN` and `STATUS` are already those of the failure, a failing ENC makes its region unspecified and no more. -/
theorem State.failEnc_eq_scrambleOutput {t : State} {c : ErrCode} (hl : t.encLen = 0) (hs : t.status = statusWord c) :
    t.failEnc c = t.scrambleOutput t.encRegion := by
  rw [State.failEnc_eq, State.scrambleOutput_frame t, ← hl, ← hs]
  rfl

/-- Where `STATUS` is already that of the failure, a failing DEC makes its region unspecified and no more. -/
theorem State.failDec_eq_scrambleOutput {t : State} {K : Nat} {c : ErrCode} (hs : t.status = statusWord c) :
    t.failDec K c = t.scrambleOutput (t.decRegion K) := by
  rw [State.failDec_eq, State.scrambleOutput_frame t, ← hs]
  rfl

/-- `ENC(W)` twice (rules R60, R204): the same result is written again, or the same region is left unspecified again. -/
theorem encCommand_encCommand (W : Width) (s : State) :
    ((encCommand W s).status = 0 → encCommand W (encCommand W s) = encCommand W s) ∧
    SameButOutput s.encRegion (encCommand W s) (encCommand W (encCommand W s)) := by
  have hagain := encResult_encCommand W s
  cases h : s.encResult W with
  | error c =>
    rw [encCommand_of_error (hagain.trans h), encCommand_of_error h]
    have hregion : (s.failEnc c).encRegion = s.encRegion := by simp [State.failEnc_eq, State.encRegion]
    rw [State.failEnc_eq_scrambleOutput (t := s.failEnc c) rfl rfl, hregion]
    exact ⟨fun h0 => absurd ((statusWord_eq_zero c).1 h0) (encResult_error_ne_ok h), sameButOutput_scrambleOutput _ _⟩
  | ok S =>
    have htwice : encCommand W (encCommand W s) = encCommand W s := by
      rw [encCommand_of_ok (hagain.trans h), encCommand_of_ok h]
      have hS := congrArg (fun t => (t.withEncLen (BitVec.ofNat 32 S.length)).succeed) (s.writeOutput_writeOutput S)
      exact hS
    rw [htwice]
    exact ⟨fun _ => rfl, sameButOutput_refl _ _⟩

/-- `DEC(W)` twice (rules R60, R204): the same elements are written again, or the same region is left unspecified again. -/
theorem decCommand_decCommand (W : Width) (s : State) :
    ((decCommand W s).status = 0 → decCommand W (decCommand W s) = decCommand W s) ∧
    SameButOutput (s.decRegion (widthWords W)) (decCommand W s) (decCommand W (decCommand W s)) := by
  have hagain := decResult_decCommand W s
  cases h : s.decResult W with
  | error c =>
    rw [decCommand_of_error (hagain.trans h), decCommand_of_error h]
    have hregion : (s.failDec (widthWords W) c).decRegion (widthWords W) = s.decRegion (widthWords W) := by
      simp [State.failDec_eq, State.decRegion]
    rw [State.failDec_eq_scrambleOutput (t := s.failDec (widthWords W) c) rfl, hregion]
    exact ⟨fun h0 => absurd ((statusWord_eq_zero c).1 h0) (decResult_error_ne_ok h), sameButOutput_scrambleOutput _ _⟩
  | ok xs =>
    have htwice : decCommand W (decCommand W s) = decCommand W s := by
      rw [decCommand_of_ok (hagain.trans h), decCommand_of_ok h]
      have hS := congrArg State.succeed (s.writeOutput_writeOutput (xs.flatMap (elementWords W)))
      exact hS
    rw [htwice]
    exact ⟨fun _ => rfl, sameButOutput_refl _ _⟩

/-- A command that is no codec command is idempotent: it writes nothing that it reads, and fails by its immediate alone (rule R60). -/
theorem commandState_commandState {i : Instr} (h : ∀ W, i ≠ encInstr W ∧ i ≠ decInstr W) (s : State) :
    commandState i (commandState i s) = commandState i s := by
  cases i with
  | enc32 => exact absurd rfl (h .w32).1
  | enc64 => exact absurd rfl (h .w64).1
  | dec32 => exact absurd rfl (h .w32).2
  | dec64 => exact absurd rfl (h .w64).2
  | setcodec imm8 =>
    by_cases hi : 3 < imm8.toNat
    · simp only [commandState_setcodec, if_pos hi]
      rfl
    · simp only [commandState_setcodec, if_neg hi]
      rfl
  | nop | pack64 | pack32 | unpack64 | unpack32 => rfl

/-- The number of OBUF words a failing command leaves unspecified (rule R204). -/
def failRegion : Instr → State → Nat
  | .enc32, s | .enc64, s => s.encRegion
  | .dec32, s => s.decRegion (widthWords .w32)
  | .dec64, s => s.decRegion (widthWords .w64)
  | _, _ => 0

theorem failRegion_encInstr (W : Width) (s : State) : failRegion (encInstr W) s = s.encRegion := by cases W <;> rfl

theorem failRegion_decInstr (W : Width) (s : State) : failRegion (decInstr W) s = s.decRegion (widthWords W) := by
  cases W <;> rfl

/-- Every command twice (rules R60, R204). -/
theorem commandState_twice (i : Instr) (s : State) :
    ((commandState i s).status = 0 → commandState i (commandState i s) = commandState i s) ∧
    SameButOutput (failRegion i s) (commandState i s) (commandState i (commandState i s)) := by
  by_cases henc : ∃ W, i = encInstr W
  · obtain ⟨W, rfl⟩ := henc
    simp only [commandState_encInstr, failRegion_encInstr]
    exact encCommand_encCommand W s
  by_cases hdec : ∃ W, i = decInstr W
  · obtain ⟨W, rfl⟩ := hdec
    simp only [commandState_decInstr, failRegion_decInstr]
    exact decCommand_decCommand W s
  · rw [commandState_commandState fun W => ⟨fun e => henc ⟨W, e⟩, fun e => hdec ⟨W, e⟩⟩]
    exact ⟨fun _ => rfl, sameButOutput_refl _ _⟩

theorem wordState_of_ok {cw : Word} {i : Instr} (h : decode cw = .ok i) (s : State) : wordState cw s = commandState i s := by
  rw [wordState, h]

theorem wordState_of_error {cw : Word} {e : DecodeError} (h : decode cw = .error e) (s : State) :
    wordState cw s = s.raise .illegalCmd := by
  rw [wordState, h]

end Sys2Proof.Machine
end

section
/-! SUPPORT. The statements about the buffers and the host's accesses (20_memory.md), settled from the rules above. -/

namespace Sys2Proof.Proofs

open Sys2Proof.Machine

/-- Settles O31: an illegal word raises the same again, and a command leaves its operands, so that it does the same again. -/
theorem commandTwiceIsCommandOnce : Obligations.CommandTwiceIsCommandOnce := by
  intro cw s t ht
  cases (runCommand_wordState cw s).symm.trans ht
  refine ⟨_, runCommand_wordState cw _, ?_⟩
  cases hd : decode cw with
  | error e =>
    simp only [wordState_of_error hd]
    exact ⟨fun _ => rfl, rfl, fun _ => rfl, nofun, nofun⟩
  | ok i =>
    simp only [wordState_of_ok hd]
    obtain ⟨hsuccess, hframe, hwords⟩ := commandState_twice i s
    refine ⟨hsuccess, hframe, fun hother => ?_, fun W hi => ?_, fun W hi => ?_⟩
    · exact commandState_commandState (fun W => (hother W).imp (mt (congrArg Except.ok)) (mt (congrArg Except.ok))) s
    · cases hi
      rwa [failRegion_encInstr] at hwords
    · cases hi
      rwa [failRegion_decInstr] at hwords

/-- Settles O32: the layout word by word, and the loader by groups of four bytes. -/
theorem streamBytesAreLittleEndian : Obligations.StreamBytesAreLittleEndian := by
  refine fun ws bs => ⟨streamBytes_length ws, streamOfBytes_streamBytes ws, fun k j hk hj => ?_, streamOfBytes_eq_none_iff bs⟩
  rw [streamBytes_getD hk hj, wordBytes_getD _ hj]

/-- Settles O29: the rule of reading after writing, at the written word and at every other. -/
theorem bufWriteSetsOneWord : Obligations.BufWriteSetsOneWord := by
  intro s sp i v ts hp hi
  have hword := (s.withProgram ts).word_writeWord sp
  refine ⟨((s.withProgram ts).writeWord sp i v).withResponse .done, ?_, ?_, fun sp' k hne => ?_, ?_⟩
  · rw [step_bufWrite hp, State.bufWrite_of_lt (s := s.withProgram ts) hi]
  · exact (hword sp i i v).trans (if_pos ⟨rfl, rfl⟩)
  · exact (hword sp' i k v).trans (if_neg hne)
  · exact congrArg (State.withResponse · .done) ((s.withProgram ts).writeWord_eq sp i v)

/-- Settles O28. -/
theorem bufReadReturnsTheWord : Obligations.BufReadReturnsTheWord := by
  intro s sp i ts hp hi
  rw [step_bufRead hp, State.bufRead_of_lt hi]
  rfl

/-- Settles O30: each of the four accesses answers `BusErr` before it touches the unit. -/
theorem busErrChangesNothing : Obligations.BusErrChangesNothing := by
  refine fun s ts => ⟨fun k hk hp => ?_, fun k v hk hp => ?_, fun sp i hi hp => ?_, fun sp i v hi hp => ?_⟩
  · rw [step_transact hp, transact, State.regRead_of_le _ hk]
    rfl
  · rw [step_transact hp, transact, State.regWrite_of_le _ hk]
    rfl
  · rw [step_bufRead hp, State.bufRead_of_le hi]
    rfl
  · rw [step_bufWrite hp, State.bufWrite_of_le (s := s.withProgram ts) hi]
    rfl

end Sys2Proof.Proofs
end

section
/-! SUPPORT. Every command's word decodes to it, the rows of the match and mask table by command, and how many words match none (rules
R81 to R88). -/

namespace Sys2Proof.Machine

/-! ### Decoding the word of a command -/

/-- The fields of a command's word (rules R81 to R83). -/
theorem encode_fields (i : Instr) :
    opField (encode i) = opcode i ∧ zeroField (encode i) = 0 ∧ imm8Field (encode i) = immediate i := by
  cases i with
  | nop => exact Laws.EncodeFields.nop
  | setcodec imm8 => exact Laws.EncodeFields.setcodec imm8
  | enc32 => exact Laws.EncodeFields.enc32
  | enc64 => exact Laws.EncodeFields.enc64
  | dec32 => exact Laws.EncodeFields.dec32
  | dec64 => exact Laws.EncodeFields.dec64
  | pack64 => exact Laws.EncodeFields.pack64
  | pack32 => exact Laws.EncodeFields.pack32
  | unpack64 => exact Laws.EncodeFields.unpack64
  | unpack32 => exact Laws.EncodeFields.unpack32

/-- No two commands share an opcode, and SETCODEC's immediate is kept (rule R85). -/
theorem instrOfOpcode_opcode (i : Instr) : instrOfOpcode (opcode i) (immediate i) = some i := by
  cases i <;> rfl

/-- Only SETCODEC has an immediate (rules R81, R82, R84). -/
theorem immediate_eq_zero {i : Instr} (h : opcode i ≠ 0x01) : immediate i = 0 := by
  cases i with
  | setcodec imm8 => exact absurd rfl h
  | _ => rfl

/-- A command's word passes the three tests of rule R86 and decodes to the command. -/
theorem decode_encode (i : Instr) : decode (encode i) = .ok i := by
  obtain ⟨hop, hzero, himm⟩ := encode_fields i
  have hlow : ¬ (opcode i ≠ 0x01 ∧ immediate i ≠ 0) := fun ⟨hne, h⟩ => h (immediate_eq_zero hne)
  simp only [decode, hop, hzero, himm, instrOfOpcode_opcode, ne_eq, not_true_eq_false, if_false]
  exact if_neg hlow

theorem decode_eq_ok_iff {cw : Word} {i : Instr} : decode cw = .ok i ↔ cw = encode i :=
  ⟨fun h => (encode_of_decode h).symm, fun h => h ▸ decode_encode i⟩

theorem encode_injective : Function.Injective encode :=
  fun i _ h => Except.ok.inj ((decode_encode i).symm.trans (decode_eq_ok_iff.2 h))

/-! ### The table by command -/

/-- The row of a command in the table of rule R85. -/
def rowOf : Instr → OpcodeRow
  | .setcodec _ => ⟨0x01000000, 0xFFFFFF00⟩
  | i => ⟨encode i, 0xFFFFFFFF⟩

/-- The table holds the rows of the ten commands and no others. -/
theorem mem_opcodeTable_iff {r : OpcodeRow} : r ∈ opcodeTable ↔ ∃ i, rowOf i = r := by
  constructor
  · have hrows : opcodeTable = [rowOf .nop, rowOf (.setcodec 0), rowOf .enc32, rowOf .enc64, rowOf .dec32, rowOf .dec64,
        rowOf .pack64, rowOf .pack32, rowOf .unpack64, rowOf .unpack32] := by decide
    rw [hrows]
    simp only [List.mem_cons, List.not_mem_nil, or_false]
    rintro (h | h | h | h | h | h | h | h | h | h) <;> exact ⟨_, h.symm⟩
  · rintro ⟨i, rfl⟩
    cases i with
    | setcodec imm8 => exact List.mem_cons_of_mem _ List.mem_cons_self
    | _ => decide

/-- SETCODEC's mask leaves out the immediate alone: a word that matches is SETCODEC of its own low byte. -/
theorem eq_encode_setcodec {cw : Word} (h : cw &&& 0xFFFFFF00 = 0x01000000) : cw = encode (.setcodec (imm8Field cw)) := by
  have hop : opField cw = 0x01 := by
    have hf := congrArg opField h
    rwa [opField, BitVec.extractLsb'_and, show BitVec.extractLsb' 24 8 (0xFFFFFF00 : Word) = BitVec.allOnes 8 by decide,
      BitVec.and_allOnes] at hf
  have hzero : zeroField cw = 0 := by
    have hf := congrArg zeroField h
    rwa [zeroField, BitVec.extractLsb'_and, show BitVec.extractLsb' 8 16 (0xFFFFFF00 : Word) = BitVec.allOnes 16 by decide,
      BitVec.and_allOnes] at hf
  calc cw = opField cw ++ (zeroField cw ++ imm8Field cw) := (fields_append cw).symm
    _ = encode (.setcodec (imm8Field cw)) := by rw [hop, hzero]; rfl

/-- A command's word matches the command's row. -/
theorem encode_matches_rowOf (i : Instr) : encode i &&& (rowOf i).mask = (rowOf i).pattern := by
  cases i with
  | setcodec imm8 =>
    revert imm8
    decide
  | _ => exact BitVec.and_allOnes

/-- A word that matches a command's row is some command's word. -/
theorem exists_encode_of_matches {cw : Word} {i : Instr} (h : cw &&& (rowOf i).mask = (rowOf i).pattern) :
    ∃ j, cw = encode j := by
  cases i with
  | setcodec imm8 => exact ⟨_, eq_encode_setcodec h⟩
  | _ => exact ⟨_, BitVec.and_allOnes.symm.trans h⟩

/-- A word matches a row of the table exactly when it is some command's word. -/
theorem exists_row_iff {cw : Word} : (∃ r ∈ opcodeTable, cw &&& r.mask = r.pattern) ↔ ∃ i, cw = encode i := by
  constructor
  · rintro ⟨r, hr, h⟩
    obtain ⟨i, rfl⟩ := mem_opcodeTable_iff.1 hr
    exact exists_encode_of_matches h
  · rintro ⟨i, rfl⟩
    exact ⟨rowOf i, mem_opcodeTable_iff.2 ⟨i, rfl⟩, encode_matches_rowOf i⟩

theorem no_row_iff {cw : Word} : (∀ r ∈ opcodeTable, cw &&& r.mask ≠ r.pattern) ↔ ∀ i, cw ≠ encode i := by
  simpa only [not_exists, not_and] using not_congr (exists_row_iff (cw := cw))

/-! ### The illegal words -/

/-- A word that is no command's raises `E_ILLEGAL_CMD` and does nothing else (rule R87). -/
theorem runCommand_illegal {cw : Word} (h : ∀ i, cw ≠ encode i) (s : State) :
    runCommand cw s = .next (s.raise .illegalCmd) := by
  rw [runCommand_wordState]
  cases hd : decode cw with
  | error e => rw [wordState_of_error hd]
  | ok i => exact absurd (decode_eq_ok_iff.1 hd) (h i)

/-- The nine commands without an operand (rule R81). -/
def formatN : Finset Instr := {.nop, .enc32, .enc64, .dec32, .dec64, .pack64, .pack32, .unpack64, .unpack32}

/-- SETCODEC with each of its 256 immediates (rule R82). -/
def formatI : Finset Instr := Finset.univ.image Instr.setcodec

theorem mem_formatN_union_formatI (i : Instr) : i ∈ formatN ∪ formatI := by
  cases i with
  | setcodec imm8 => exact Finset.mem_union_right _ (Finset.mem_image_of_mem _ (Finset.mem_univ imm8))
  | _ => exact Finset.mem_union_left _ (by decide)

theorem disjoint_formatN_formatI : Disjoint formatN formatI := by
  simp [formatN, formatI, Finset.disjoint_right]

theorem fintype_card_bitVec (w : Nat) : Fintype.card (BitVec w) = 2 ^ w :=
  FinEnum.card_eq_fintypeCard.symm.trans (FinEnum.card_bitVec w)

theorem card_formatI : formatI.card = 256 := by
  rw [formatI, Finset.card_image_of_injective _ fun _ _ h => Instr.setcodec.inj h, Finset.card_univ, fintype_card_bitVec]
  rfl

/-- The words of the commands. -/
def legalWords : Finset Word := (formatN ∪ formatI).image encode

theorem mem_legalWords_iff {cw : Word} : cw ∈ legalWords ↔ ∃ i, cw = encode i := by
  simp only [legalWords, Finset.mem_image, mem_formatN_union_formatI, true_and, eq_comm]

theorem card_legalWords : legalWords.card = 265 := by
  rw [legalWords, Finset.card_image_of_injective _ encode_injective, Finset.card_union_of_disjoint disjoint_formatN_formatI,
    card_formatI]
  rfl

/-- The words of no command. -/
def illegalWords : Finset Word := legalWordsᶜ

theorem mem_illegalWords_iff {cw : Word} : cw ∈ illegalWords ↔ ∀ i, cw ≠ encode i := by
  simp only [illegalWords, Finset.mem_compl, mem_legalWords_iff, not_exists, ne_eq]

/-- `2^32` words without the 265 of the commands (rule R87). -/
theorem card_illegalWords : illegalWords.card = 4294967031 := by
  rw [illegalWords, Finset.card_compl, card_legalWords, fintype_card_bitVec]
  norm_num

end Sys2Proof.Machine
end

section
/-! SUPPORT. Running a list of buffer writes, and the padded count (rules R58, R91, R183). -/

namespace Sys2Proof.Machine

/-! ### The padded count -/

theorem le_paddedCount (n : Nat) : n ≤ paddedCount n := by
  unfold paddedCount ceilDiv
  omega

theorem paddedCount_lt (n : Nat) : paddedCount n < n + 128 := by
  unfold paddedCount ceilDiv
  omega

/-- Every preset accepts a padded count (rules R170, R183). -/
theorem paddedCount_mod_blockReq (n : Nat) (p : Preset) : paddedCount n % blockReq p = 0 := by
  cases p with
  | dpfor => exact Nat.mul_mod_right 128 _
  | _ => exact Nat.mod_one _

/-! ### A list of buffer writes -/

@[simp] theorem bufWrites_length (sp : Space) (i : Nat) (ws : List Word) : (bufWrites sp i ws).length = ws.length := by
  induction ws generalizing i with
  | nil => rfl
  | cons w ws ih => simp [bufWrites, ih]

/-- A write inside the buffer sets one word and is done (rule R58). -/
theorem step_bufWrite_of_lt {s : State} {sp : Space} {i : Nat} {v : Word} {ts : List Txn} (hp : s.program = .bufWrite sp i v :: ts)
    (hi : i < s.params.size sp) : step s = .next (((s.writeWord sp i v).withProgram ts).withResponse .done) := by
  rw [step_bufWrite hp, State.bufWrite_of_lt (s := s.withProgram ts) hi]
  cases sp <;> rfl

/-- Writes inside a buffer, run to the last: the words are in the buffer from index `i` on, its other words stay, and so does the rest
of the unit (rule R58). -/
theorem run_bufWrites {sp : Space} {ws : List Word} {ts : List Txn} {i : Nat} {s : State}
    (hp : s.program = bufWrites sp i ws ++ ts) (hi : i + ws.length ≤ s.params.size sp) :
    ∃ u : State, Sys2Proof.core.run ws.length s = .next u ∧
      (∀ k, u.word sp k = if i ≤ k ∧ k < i + ws.length then ws.getD (k - i) 0 else s.word sp k) ∧
      u = { s.withMem sp (u.mem sp) with program := ts, response := u.response } := by
  induction ws generalizing i s with
  | nil =>
    have hts : s.program = ts := hp
    refine ⟨s, rfl, fun k => (if_neg ?_).symm, ?_⟩
    · rw [List.length_nil]
      omega
    · subst hts
      cases sp <;> rfl
  | cons w ws ih =>
    rw [List.length_cons] at hi
    have hstep := step_bufWrite_of_lt hp (show i < s.params.size sp by omega)
    have hsize : (s.writeWord sp i w).params = s.params := (s.writeWord_frame sp i w).2.1
    obtain ⟨u, hrun, hword, hframe⟩ := ih (i := i + 1)
      (s := ((s.writeWord sp i w).withProgram (bufWrites sp (i + 1) ws ++ ts)).withResponse .done) rfl
      (hsize ▸ (show i + 1 + ws.length ≤ s.params.size sp by omega))
    refine ⟨u, (run_succ hstep _).trans hrun, fun k => ?_, hframe.trans (by cases sp <;> rfl)⟩
    have hrest : u.word sp k = if i + 1 ≤ k ∧ k < i + 1 + ws.length then ws.getD (k - (i + 1)) 0
        else (s.writeWord sp i w).word sp k := hword k
    rw [hrest, State.word_writeWord, List.length_cons]
    rcases Nat.lt_trichotomy k i with hk | rfl | hk
    · rw [if_neg (by omega), if_neg (by omega), if_neg (by omega)]
    · rw [if_neg (by omega), if_pos ⟨rfl, rfl⟩, if_pos (by omega), Nat.sub_self, List.getD_cons_zero]
    · have hsub : k - i = k - (i + 1) + 1 := by omega
      rw [if_neg (show ¬ (sp = sp ∧ k = i) from fun h => hk.ne' h.2), hsub, List.getD_cons_succ]
      exact if_congr (by omega) rfl rfl

/-! ### The transactions of a padded encoding -/

/-- The zero words that pad `n` elements of `W` bits to the padded count (rule R91). -/
def padding (W : Width) (n : Nat) : List Word := List.replicate (widthWords W * paddedCount n - widthWords W * n) 0

/-- The padding goes from the end of the `n` elements to the end of the padded array. -/
theorem padding_end (W : Width) (n : Nat) : widthWords W * n + (padding W n).length = widthWords W * paddedCount n := by
  rw [padding, List.length_replicate]
  exact Nat.add_sub_cancel' (Nat.mul_le_mul_left _ (le_paddedCount n))

theorem padding_getD (W : Width) (n j : Nat) : (padding W n).getD j 0 = 0 := by
  rw [padding, List.getD_eq_getElem?_getD, List.getElem?_getD_replicate_default_eq]

/-- ENCP32 and ENCP64: the padding, the padded count, the command (rule R91). -/
theorem expandLine_encp (W : Width) (n : Nat) :
    expandLine (.encp W n) = bufWrites .ibuf (widthWords W * n) (padding W n) ++
      [.regWrite (regNumber .nElems) (BitVec.ofNat 32 (paddedCount n)), commandTxn (encInstr W)] := rfl

theorem expandLine_encp_length (W : Width) (n : Nat) : (expandLine (.encp W n)).length - 1 = (padding W n).length + 1 := by
  rw [expandLine_encp, List.length_append, bufWrites_length]
  rfl

end Sys2Proof.Machine
end

section
/-! SUPPORT. The statements about the command words and the padded pseudo-commands (30_encoding.md), settled from the rules above. -/

namespace Sys2Proof.Proofs

open Sys2Proof.Machine

/-- Settles O6: decoding a command's word meets each of the three tests, and the word is made of its fields again. -/
theorem decodeAndEncodeAgree : Obligations.DecodeAndEncodeAgree :=
  ⟨fun i _ => decode_encode i, fun _ _ => decode_eq_ok_iff⟩

/-- Settles O7: both sides say that the word is some command's. -/
theorem decoderAcceptsExactlyTheTable : Obligations.DecoderAcceptsExactlyTheTable := fun _ =>
  (exists_congr fun _ => decode_eq_ok_iff).trans exists_row_iff.symm

/-- Settles O9: the words that match no row are those of no command, and there are 265 commands. -/
theorem illegalWordsChangeOnlyStatus : Obligations.IllegalWordsChangeOnlyStatus :=
  ⟨fun s _ h => runCommand_illegal (no_row_iff.1 h) s,
    illegalWords, card_illegalWords, fun _ => mem_illegalWords_iff.trans no_row_iff.symm⟩

/-- Settles O42: the padding is a list of buffer writes inside IBUF, and one more step stores the padded count. -/
theorem paddedEncodePreparesTheInput : Obligations.PaddedEncodePreparesTheInput := by
  intro W n s hcount hsize
  obtain ⟨t, hpadding, hword, ht⟩ :=
    run_bufWrites (s := s.withProgram (expandLine (.encp W n))) (expandLine_encp W n) ((padding_end W n).trans_le hsize)
  have hrun : Sys2Proof.core.run ((expandLine (.encp W n)).length - 1) (s.withProgram (expandLine (.encp W n))) =
      .next (((t.withProgram [commandTxn (encInstr W)]).withNElems (BitVec.ofNat 32 (paddedCount n))).withResponse .done) := by
    rw [expandLine_encp_length, run_add 1 hpadding, run_succ (step_regWrite_store (r := .nElems) (by rw [ht]) rfl (by decide))]
    rfl
  have hibuf (k : Nat) :
      t.word .ibuf k = if widthWords W * n ≤ k ∧ k < widthWords W * paddedCount n then 0 else s.word .ibuf k := by
    rw [hword k, padding_end, padding_getD]
    rfl
  refine ⟨_, hrun, rfl, Nat.mod_eq_of_lt hcount, le_paddedCount n, paddedCount_lt n, paddedCount_mod_blockReq n, hibuf, ?_⟩
  exact congrArg (fun x : State => ((x.withProgram [commandTxn (encInstr W)]).withNElems
    (BitVec.ofNat 32 (paddedCount n))).withResponse .done) ht

/-- Settles O8: each word is the command's, so it decodes to it. -/
theorem tableWordsDecode : Obligations.TableWordsDecode :=
  ⟨decode_encode .nop, decode_encode (.setcodec 2), decode_encode .enc32, decode_encode .enc64, decode_encode .dec32,
    decode_encode .dec64, decode_encode .pack64, decode_encode .pack32, decode_encode .unpack64, decode_encode .unpack32⟩

end Sys2Proof.Proofs
end

section
/-! SUPPORT. The words and the outcomes of NOP and SETCODEC (rules R101, R102). -/

namespace Sys2Proof.Machine

/-- NOP is the command with opcode 0 (rules R85, R101). -/
theorem opcode_eq_zero_iff {i : Instr} : opcode i = 0 ↔ i = .nop := by
  cases i <;> simp [opcode]

/-- A word with opcode 0 decodes only if it is NOP's (rules R87, R101). -/
theorem eq_encode_nop_of_decode {cw : Word} {i : Instr} (hop : opField cw = 0) (h : decode cw = .ok i) : cw = encode .nop := by
  have hcw : cw = encode i := decode_eq_ok_iff.1 h
  obtain ⟨hopcode, -, -⟩ := encode_fields i
  have hi : i = .nop := opcode_eq_zero_iff.1 (hopcode.symm.trans (hcw ▸ hop))
  rw [hcw, hi]

/-- The word of SETCODEC is `0x01000000 + imm8` (rule R102). -/
theorem encode_setcodec (imm8 : Byte) : encode (.setcodec imm8) = BitVec.ofNat 32 (0x01000000 + imm8.toNat) := by
  have hlow : imm8.toNat < 2 ^ 24 := imm8.isLt.trans (by decide)
  apply BitVec.eq_of_toNat_eq
  calc (encode (.setcodec imm8)).toNat
      = 1 <<< 24 ||| (0#16 ++ imm8).toNat := BitVec.toNat_append 1#8 (0#16 ++ imm8)
    _ = 1 <<< 24 ||| imm8.toNat := by rw [BitVec.toNat_append]; simp
    _ = 1 <<< 24 + imm8.toNat := (Nat.shiftLeft_add_eq_or_of_lt hlow 1).symm
    _ = (BitVec.ofNat 32 (0x01000000 + imm8.toNat)).toNat := by
      rw [BitVec.toNat_ofNat, Nat.mod_eq_of_lt (by omega), Nat.shiftLeft_eq]

/-- SETCODEC of a preset's number selects the preset (rule R102). -/
theorem exec_setcodec_of_le {imm8 : Byte} (h : imm8.toNat ≤ 3) (s : State) :
    exec (.setcodec imm8) s = .next ((s.withCodecSel (BitVec.ofNat 2 imm8.toNat)).withStatus 0) := by
  rw [exec_eq, commandState_setcodec, if_neg (Nat.not_lt.2 h), State.succeed_eq, BitVec.ofNat_toNat]

/-- SETCODEC of any other number raises `E_SELECTOR` and does nothing else (rule R102). -/
theorem exec_setcodec_of_lt {imm8 : Byte} (h : 3 < imm8.toNat) (s : State) :
    exec (.setcodec imm8) s = .next (s.raise .selector) := by
  rw [exec_eq, commandState_setcodec, if_pos h]

end Sys2Proof.Machine
end

section
/-! SUPPORT. The statements about the system commands (40_system_commands.md), settled from the rules above. -/

namespace Sys2Proof.Proofs

open Sys2Proof.Machine

/-- Settles O14: NOP succeeds from every state, and a word with opcode 0 that decodes is NOP's own word, which is 0. -/
theorem nopOnlyClearsStatus : Obligations.NopOnlyClearsStatus :=
  ⟨exec_eq .nop, decode_encode .nop, fun _ hop hne _ h => hne (eq_encode_nop_of_decode hop h)⟩

/-- Settles O15: the word is the command's, and the immediate is a preset's number or is not. -/
theorem setcodecSelectsOrFails : Obligations.SetcodecSelectsOrFails := by
  refine fun imm8 s => ⟨decode_eq_ok_iff.2 (encode_setcodec imm8).symm, ?_⟩
  split
  case isTrue h => exact exec_setcodec_of_le h s
  case isFalse h => exact exec_setcodec_of_lt (Nat.not_le.1 h) s

end Sys2Proof.Proofs
end

section
/-! SUPPORT. The packed voxel format: the field of a position, the packed word and its six fields, and what the packer and the unpacker do
to the state (rules R111 to R119). -/

namespace Sys2Proof.Machine

/-! ### The field of a position -/

/-- `sint_16` is the signed reading of a 16-bit register (rule R9). -/
theorem sint_toNat (p : Half) : sint 16 p.toNat = p.toInt := by
  rw [BitVec.toInt_eq_msb_cond, BitVec.msb_eq_getLsbD_last]
  rfl

/-- The two readings of a position agree modulo `2^w`, since `2^w` divides `2^16` (rule R113). -/
theorem toInt_add_emod (p : Half) (B : Int) {w : Nat} (hw : w ≤ 16) : (p.toInt + B) % 2 ^ w = (p.toNat + B) % 2 ^ w := by
  have hdvd : (2 : Int) ^ w ∣ ((2 ^ 16 : Nat) : Int) := by exact_mod_cast pow_dvd_pow 2 hw
  have hread : p.toInt % 2 ^ w = p.toNat % 2 ^ w := by
    rw [BitVec.toInt_eq_toNat_bmod, ← Int.emod_emod_of_dvd _ hdvd, Int.bmod_emod, Int.emod_emod_of_dvd _ hdvd]
  rw [Int.add_emod, hread, ← Int.add_emod]

/-- The field is cut from the signed reading (rule R113). -/
theorem voxelField_signed (p : Half) (B w : Nat) : (voxelField p B w : Int) = (p.toInt + B) % 2 ^ w := by
  rw [voxelField, sint_toNat, Int.toNat_of_nonneg (Int.emod_nonneg _ (by positivity))]

/-- The field is cut from the unsigned reading as well (rule R113). -/
theorem voxelField_unsigned (p : Half) (B : Nat) {w : Nat} (hw : w ≤ 16) : voxelField p B w = (p.toNat + B) % 2 ^ w := by
  have h : (voxelField p B w : Int) = (p.toNat + B) % 2 ^ w := (voxelField_signed p B w).trans (toInt_add_emod p B hw)
  exact_mod_cast h

theorem voxelField_lt (p : Half) (B w : Nat) : voxelField p B w < 2 ^ w := by
  have h : (voxelField p B w : Int) < 2 ^ w := voxelField_signed p B w ▸ Int.emod_lt_of_pos _ (by positivity)
  exact_mod_cast h

/-- A component is its field with the bias taken off, as a 16-bit value (rule R117). -/
theorem voxelComponent_eq_ofInt (u B : Nat) : voxelComponent u B = BitVec.ofInt 16 (u - B) := by
  apply BitVec.eq_of_toNat_eq
  rw [voxelComponent, BitVec.toNat_ofNat, Nat.mod_eq_of_lt (subMod_lt 16 u B), BitVec.toNat_ofInt]
  rfl

/-- A component without bias is its field (rules R112, R117). -/
theorem voxelComponent_biasZ (u : Nat) : voxelComponent u biasZ = BitVec.ofNat 16 u := by
  rw [voxelComponent_eq_ofInt, biasZ, Nat.cast_zero, sub_zero, BitVec.ofInt_natCast]

/-- The signed reading of a component, where the field less the bias is a signed 16-bit value (rule R117). -/
theorem voxelComponent_toInt {u B : Nat} (hu : u < 2 ^ 15) (hB : B ≤ 2 ^ 15) : (voxelComponent u B).toInt = u - B := by
  rw [voxelComponent_eq_ofInt, BitVec.toInt_ofInt_eq_self] <;> omega

/-- A position cut to its field and given back is reduced into the range of the field (rule R122). -/
theorem voxelComponent_voxelField_toInt {p : Half} {B w : Nat} (hw : w ≤ 15) (hB : B ≤ 2 ^ 15) :
    (voxelComponent (voxelField p B w) B).toInt = (p.toInt + B) % 2 ^ w - B := by
  have hu : voxelField p B w < 2 ^ 15 := (voxelField_lt p B w).trans_le (Nat.pow_le_pow_right (by decide) hw)
  rw [voxelComponent_toInt hu hB, voxelField_signed]

/-- The field of a component made from a field is that field (rules R113, R117). -/
theorem voxelField_voxelComponent {u B w : Nat} (hw : w ≤ 16) (hu : u < 2 ^ w) :
    voxelField (voxelComponent u B) B w = u := by
  have hu16 : u < 2 ^ 16 := hu.trans_le (Nat.pow_le_pow_right (by decide) hw)
  calc voxelField (voxelComponent u B) B w
      = (subMod 16 u B + B) % 2 ^ w := by
        rw [voxelField_unsigned _ _ hw, voxelComponent, BitVec.toNat_ofNat, Nat.mod_eq_of_lt (subMod_lt 16 u B)]
    _ = addMod 16 B (subMod 16 u B) % 2 ^ w := by
        rw [addMod, Nat.mod_mod_of_dvd _ (pow_dvd_pow 2 hw), Nat.add_comm]
    _ = u := by rw [addMod_subMod hu16, Nat.mod_eq_of_lt hu]

/-! ### The packed word -/

theorem slice_zero (v hi : Nat) : slice v hi 0 = v % 2 ^ (hi + 1) := by
  rw [slice, Nat.pow_zero, Nat.div_one, Nat.sub_zero]

/-- A slice that reaches the top bit of a number is all of it above `lo` (rule R6). -/
theorem slice_top {v hi lo : Nat} (hlo : lo ≤ hi) (hv : v < 2 ^ (hi + 1)) : slice v hi lo = v / 2 ^ lo := by
  apply Nat.mod_eq_of_lt
  apply Nat.div_lt_of_lt_mul
  rwa [← Nat.pow_add, show lo + (hi - lo + 1) = hi + 1 by omega]

/-- The packed word is a 64-bit value (rule R114). -/
theorem packWord_lt (x y z : Half) (r g b : Byte) : packWord x y z r g b < 2 ^ 64 := by
  have hx := voxelField_lt x biasXY 13
  have hy := voxelField_lt y biasXY 13
  have hz := voxelField_lt z biasZ 14
  unfold packWord
  omega

/-- Each field of the packed word comes from one component alone (rules R114, R123). -/
theorem slice_packWord (x y z : Half) (r g b : Byte) :
    slice (packWord x y z r g b) 12 0 = voxelField x biasXY 13 ∧
    slice (packWord x y z r g b) 25 13 = voxelField y biasXY 13 ∧
    slice (packWord x y z r g b) 39 26 = voxelField z biasZ 14 ∧
    slice (packWord x y z r g b) 47 40 = r.toNat ∧
    slice (packWord x y z r g b) 55 48 = g.toNat ∧
    slice (packWord x y z r g b) 63 56 = b.toNat := by
  have hx := voxelField_lt x biasXY 13
  have hy := voxelField_lt y biasXY 13
  have hz := voxelField_lt z biasZ 14
  unfold packWord slice
  refine ⟨?_, ?_, ?_, ?_, ?_, ?_⟩ <;> omega

/-- Every 64-bit word is the packed word of the voxel unpacked from it (rules R117, R121). -/
theorem packWord_unpacked {P : Nat} (hP : P < 2 ^ 64) :
    packWord (voxelComponent (slice P 12 0) biasXY) (voxelComponent (slice P 25 13) biasXY)
      (voxelComponent (slice P 39 26) biasZ)
      (BitVec.ofNat 8 (slice P 47 40)) (BitVec.ofNat 8 (slice P 55 48)) (BitVec.ofNat 8 (slice P 63 56)) = P := by
  have hfield (hi lo : Nat) : slice P hi lo < 2 ^ (hi - lo + 1) := Nat.mod_lt _ (Nat.two_pow_pos _)
  rw [packWord, voxelField_voxelComponent (by decide) (hfield 12 0), voxelField_voxelComponent (by decide) (hfield 25 13),
    voxelField_voxelComponent (by decide) (hfield 39 26)]
  simp only [BitVec.toNat_ofNat, slice]
  omega

/-! ### The packer and the unpacker -/

/-- The pair of words is determined by the number they make (rule R34). -/
theorem State.packed_inj {s t : State} (h : s.packed = t.packed) : s.pkLo = t.pkLo ∧ s.pkHi = t.pkHi := by
  unfold State.packed at h
  constructor <;> apply BitVec.eq_of_toNat_eq <;> omega

theorem State.packed_lt (s : State) : s.packed < 2 ^ 64 := by
  unfold State.packed
  omega

/-- The pair that packing writes is the packed word (rules R115, R119). -/
theorem State.packVoxel_packed (s : State) : s.packVoxel.packed = packWord s.px s.py s.pz s.cr s.cg s.cb := by
  have hP := packWord_lt s.px s.py s.pz s.cr s.cg s.cb
  simp only [State.packVoxel_eq, State.packed, State.withPacked_pkLo, State.withPacked_pkHi, BitVec.toNat_ofNat, slice]
  omega

/-- The low word of the pair: `x`, `y` and the low 6 bits of `z` (rule R119). -/
theorem State.packVoxel_pkLo (s : State) :
    s.packVoxel.pkLo.toNat = voxelField s.px biasXY 13 + 2 ^ 13 * voxelField s.py biasXY 13 +
      2 ^ 26 * (voxelField s.pz biasZ 14 % 2 ^ 6) := by
  have hx := voxelField_lt s.px biasXY 13
  have hy := voxelField_lt s.py biasXY 13
  rw [State.packVoxel_eq, State.withPacked_pkLo, BitVec.toNat_ofNat, slice_zero, packWord]
  omega

/-- The high word of the pair: the high 8 bits of `z` and the channels (rule R119). -/
theorem State.packVoxel_pkHi (s : State) :
    s.packVoxel.pkHi.toNat = voxelField s.pz biasZ 14 / 2 ^ 6 + 2 ^ 8 * s.cr.toNat + 2 ^ 16 * s.cg.toNat +
      2 ^ 24 * s.cb.toNat := by
  have hx := voxelField_lt s.px biasXY 13
  have hy := voxelField_lt s.py biasXY 13
  have hz := voxelField_lt s.pz biasZ 14
  rw [State.packVoxel_eq, State.withPacked_pkHi, BitVec.toNat_ofNat, slice_top (by decide) (packWord_lt ..), packWord]
  omega

/-- The six fields of the pair that packing writes (rules R114, R115). -/
theorem State.packVoxel_fields (s : State) :
    s.packVoxel.packed % 2 ^ 13 = voxelField s.px biasXY 13 ∧
    s.packVoxel.packed / 2 ^ 13 % 2 ^ 13 = voxelField s.py biasXY 13 ∧
    s.packVoxel.packed / 2 ^ 26 % 2 ^ 14 = voxelField s.pz biasZ 14 ∧
    s.packVoxel.packed / 2 ^ 40 % 2 ^ 8 = s.cr.toNat ∧
    s.packVoxel.packed / 2 ^ 48 % 2 ^ 8 = s.cg.toNat ∧
    s.packVoxel.packed / 2 ^ 56 = s.cb.toNat := by
  obtain ⟨hx, hy, hz, hr, hg, hb⟩ := slice_packWord s.px s.py s.pz s.cr s.cg s.cb
  rw [slice_zero] at hx
  rw [slice_top (by decide) (packWord_lt ..)] at hb
  rw [s.packVoxel_packed]
  exact ⟨hx, hy, hz, hr, hg, hb⟩

/-- Unpacking a packed voxel gives the component of each field, and the colours (rules R117, R122). -/
theorem State.unpackVoxel_packVoxel (s : State) :
    SameVoxel s.packVoxel.unpackVoxel
      (s.withPosition (voxelComponent (voxelField s.px biasXY 13) biasXY)
        (voxelComponent (voxelField s.py biasXY 13) biasXY) (voxelComponent (voxelField s.pz biasZ 14) biasZ)) := by
  obtain ⟨hx, hy, hz, hr, hg, hb⟩ := slice_packWord s.px s.py s.pz s.cr s.cg s.cb
  simp [SameVoxel, State.unpackVoxel, State.packVoxel_packed, hx, hy, hz, hr, hg, hb]

/-- Packing an unpacked voxel gives the packed word again (rule R121). -/
theorem State.packVoxel_unpackVoxel (s : State) : s.unpackVoxel.packVoxel.packed = s.packed :=
  s.unpackVoxel.packVoxel_packed.trans (packWord_unpacked s.packed_lt)

/-! ### The commands -/

/-- Both packing commands pack (rules R115, R116). -/
theorem exec_pack {i : Instr} (hi : i = .pack64 ∨ i = .pack32) (s : State) : exec i s = .next s.packVoxel.succeed := by
  obtain rfl | rfl := hi
  · exact exec_eq .pack64 s
  · exact exec_eq .pack32 s

/-- Both unpacking commands unpack (rules R117, R118). -/
theorem exec_unpack {i : Instr} (hi : i = .unpack64 ∨ i = .unpack32) (s : State) : exec i s = .next s.unpackVoxel.succeed := by
  obtain rfl | rfl := hi
  · exact exec_eq .unpack64 s
  · exact exec_eq .unpack32 s

end Sys2Proof.Machine
end

section
/-! SUPPORT. The statements about the voxel commands (41_packedvoxel.md), settled from the rules above. -/

namespace Sys2Proof.Proofs

open Sys2Proof.Machine

/-- Settles O17: the two readings agree modulo `2^16`, hence modulo `2^w`. -/
theorem biasedFieldIsCutByMasking : Obligations.BiasedFieldIsCutByMasking :=
  fun p B w hw => ⟨voxelField_signed p B w, voxelField_unsigned p B hw⟩

/-- Settles O19: the packed word cut at bit 32, which lies inside the field of `z`. -/
theorem packedPairStraddlesZ : Obligations.PackedPairStraddlesZ :=
  fun _ s hi => ⟨_, exec_pack hi s, s.packVoxel_pkLo, s.packVoxel_pkHi⟩

/-- Settles O23: unpacking takes the bias off the fields that packing cut. -/
theorem outOfRangeComponentsWrap : Obligations.OutOfRangeComponentsWrap := by
  intro i j s hi hj
  obtain ⟨hx, hy, hz, hr, hg, hb⟩ := s.unpackVoxel_packVoxel
  refine ⟨_, _, exec_pack hi s, exec_unpack hj _, ?_, ?_, ?_, hr, hg, hb⟩
  · exact (congrArg BitVec.toInt hx).trans (voxelComponent_voxelField_toInt (by decide) (by decide))
  · exact (congrArg BitVec.toInt hy).trans (voxelComponent_voxelField_toInt (by decide) (by decide))
  · calc s.packVoxel.unpackVoxel.pz.toInt
        = (s.pz.toInt + 0) % 16384 - 0 :=
          (congrArg BitVec.toInt hz).trans (voxelComponent_voxelField_toInt (by decide) (by decide))
      _ = s.pz.toInt % 16384 := by rw [add_zero, sub_zero]

/-- Settles O21: in its range a component is the one it is reduced to. -/
theorem unpackInvertsPack : Obligations.UnpackInvertsPack := by
  intro i j s hi hj hx0 hx1 hy0 hy1 hz0 hz1
  obtain ⟨t, u, ht, hu, hx, hy, hz, hr, hg, hb⟩ := outOfRangeComponentsWrap i j s hi hj
  refine ⟨t, u, ht, hu, ?_, ?_, ?_, hr.symm, hg.symm, hb.symm⟩ <;> apply BitVec.eq_of_toInt_eq <;> omega

/-- Settles O22: packing the unpacked voxel gives the same word, and the word determines its halves. -/
theorem packInvertsUnpack : Obligations.PackInvertsUnpack :=
  fun _ _ s hi hj => ⟨_, _, exec_unpack hi s, exec_pack hj _, State.packed_inj s.packVoxel_unpackVoxel⟩

/-- Settles O24: each field of the packed word is a function of one register. -/
theorem packLanesDoNotInteract : Obligations.PackLanesDoNotInteract := by
  intro i s s' t t' hi ht ht'
  cases (exec_pack hi s).symm.trans ht
  cases (exec_pack hi s').symm.trans ht'
  obtain ⟨hx, hy, hz, hr, hg, hb⟩ := s.packVoxel_fields
  obtain ⟨hx', hy', hz', hr', hg', hb'⟩ := s'.packVoxel_fields
  exact ⟨fun h => hx.trans (h ▸ hx'.symm), fun h => hy.trans (h ▸ hy'.symm), fun h => hz.trans (h ▸ hz'.symm),
    fun h => hr.trans (h ▸ hr'.symm), fun h => hg.trans (h ▸ hg'.symm), fun h => hb.trans (h ▸ hb'.symm)⟩

/-- Settles O18: the numbers given are the fields, so `P` is the packed word, and both its halves are written. -/
theorem packWritesThePackedWord : Obligations.PackWritesThePackedWord := by
  intro i s ux uy uz P hi hux huy huz hP
  have hx : ux = voxelField s.px biasXY 13 := Int.ofNat.inj (hux.trans (voxelField_signed ..).symm)
  have hy : uy = voxelField s.py biasXY 13 := Int.ofNat.inj (huy.trans (voxelField_signed ..).symm)
  have hz : uz = voxelField s.pz biasZ 14 := Int.ofNat.inj (huz.trans (voxelField_signed ..).symm)
  have hword : P = packWord s.px s.py s.pz s.cr s.cg s.cb := by rw [hP, hx, hy, hz, packWord]
  have hlt : P < 2 ^ 64 := hword ▸ packWord_lt ..
  refine ⟨hlt, ?_⟩
  rw [exec_pack hi, State.packVoxel_eq, ← hword, slice_zero, slice_top (by decide) hlt]
  rfl

/-- Settles O20: the components and the channels of the word's fields. -/
theorem unpackWritesTheVoxel : Obligations.UnpackWritesTheVoxel := by
  rintro i s P hi rfl
  rw [exec_unpack hi, State.unpackVoxel, slice_zero, slice_top (by decide) s.packed_lt, voxelComponent_eq_ofInt,
    voxelComponent_eq_ofInt, voxelComponent_biasZ]
  rfl

end Sys2Proof.Proofs
end

section
/-! SUPPORT. Bit strings: which bit of a packed word string is which bit of which value, that packing and unpacking are inverse, and the
slices of a word (rules R6, R133). -/

namespace Sys2Proof.Machine

/-! ### Rounding up -/

theorem ceilDiv_le_iff {a b k : Nat} (hb : 0 < b) : ceilDiv a b ≤ k ↔ a ≤ b * k := by
  rw [ceilDiv, ← Nat.lt_succ_iff, Nat.div_lt_iff_lt_mul hb, Nat.succ_mul, Nat.mul_comm k b]
  omega

theorem le_mul_ceilDiv (a : Nat) {b : Nat} (hb : 0 < b) : a ≤ b * ceilDiv a b :=
  (ceilDiv_le_iff hb).1 le_rfl

theorem ceilDiv_mono {a a' : Nat} (b : Nat) (h : a ≤ a') : ceilDiv a b ≤ ceilDiv a' b :=
  Nat.div_le_div_right (Nat.add_le_add_right h _)

theorem ceilDiv_mul_mul (a b : Nat) {k : Nat} (hb : 0 < b) (hk : 0 < k) : ceilDiv (k * a) (k * b) = ceilDiv a b := by
  refine eq_of_forall_ge_iff fun c => ?_
  rw [ceilDiv_le_iff (Nat.mul_pos hk hb), ceilDiv_le_iff hb, Nat.mul_assoc, Nat.mul_le_mul_left_iff hk]

@[simp] theorem ceilDiv_zero (b : Nat) : ceilDiv 0 b = 0 := by
  rw [ceilDiv, Nat.zero_add]
  rcases Nat.eq_zero_or_pos b with rfl | hb
  · rfl
  · exact Nat.div_eq_of_lt (Nat.sub_lt hb Nat.one_pos)

/-! ### Joining and splitting -/

theorem joinBits_cons (w v : Nat) (vs : List Nat) : joinBits w (v :: vs) = 2 ^ w * joinBits w vs + v % 2 ^ w :=
  Nat.add_comm _ _

/-- Bit `i·w + j` of the joined number is bit `j` of value `i`, and it has no other bits (rule R133). -/
theorem testBit_joinBits (w : Nat) (vs : List Nat) (t : Nat) :
    (joinBits w vs).testBit t = (decide (t < vs.length * w) && (vs.getD (t / w) 0).testBit (t % w)) := by
  induction vs generalizing t with
  | nil => simp [joinBits]
  | cons v vs ih =>
    rw [joinBits_cons, Nat.testBit_two_pow_mul_add _ (Nat.mod_lt _ (Nat.two_pow_pos w)), List.length_cons, Nat.succ_mul]
    split
    next ht =>
      rw [Nat.div_eq_of_lt ht, Nat.mod_eq_of_lt ht, Nat.testBit_mod_two_pow, decide_eq_true ht,
        decide_eq_true (ht.trans_le (Nat.le_add_left _ _))]
      rfl
    next ht =>
      rcases Nat.eq_zero_or_pos w with rfl | hw
      · rw [ih]; simp
      · have hle : w ≤ t := Nat.not_lt.1 ht
        have hlt : t - w < vs.length * w ↔ t < vs.length * w + w := by omega
        rw [ih, Nat.div_eq_sub_div hw hle, Nat.mod_eq_sub_mod hle, List.getD_cons_succ]
        simp only [hlt]

theorem joinBits_lt (w : Nat) (vs : List Nat) : joinBits w vs < 2 ^ (vs.length * w) := by
  refine Nat.lt_pow_two_of_testBit _ fun t ht => ?_
  rw [testBit_joinBits, decide_eq_false (Nat.not_lt.2 ht), Bool.false_and]

/-- Value `i` of a split number is its `i`-th group of `w` bits (rule R133). -/
theorem splitBits_getD {w c i : Nat} (a : Nat) (hi : i < c) : (splitBits w c a).getD i 0 = a / 2 ^ (i * w) % 2 ^ w := by
  induction c generalizing a i with
  | zero => exact absurd hi (Nat.not_lt_zero i)
  | succ c ih =>
    cases i with
    | zero => simp [splitBits]
    | succ i =>
      rw [splitBits, List.getD_cons_succ, ih _ (Nat.lt_of_succ_lt_succ hi), Nat.div_div_eq_div_mul, ← Nat.pow_add,
        Nat.succ_mul, Nat.add_comm w]

theorem splitBits_append (w c c' a : Nat) :
    splitBits w (c + c') a = splitBits w c a ++ splitBits w c' (a / 2 ^ (c * w)) := by
  induction c generalizing a with
  | zero => simp [splitBits]
  | succ c ih =>
    rw [Nat.succ_add, splitBits, splitBits, ih, Nat.div_div_eq_div_mul, ← Nat.pow_add, Nat.succ_mul, Nat.add_comm w]
    rfl

/-- Joined values are given back, each cut to `w` bits (rule R133). -/
theorem splitBits_joinBits (w : Nat) (vs : List Nat) : splitBits w vs.length (joinBits w vs) = vs.map (· % 2 ^ w) := by
  induction vs with
  | nil => rfl
  | cons v vs ih =>
    have hv : v % 2 ^ w < 2 ^ w := Nat.mod_lt _ (Nat.two_pow_pos w)
    rw [List.length_cons, splitBits, joinBits_cons, Nat.mul_add_mod, Nat.mod_mod,
      Nat.mul_add_div (Nat.two_pow_pos w), Nat.div_eq_of_lt hv, Nat.add_zero, ih]
    rfl

theorem map_mod_two_pow {w : Nat} {vs : List Nat} (h : ∀ v ∈ vs, v < 2 ^ w) : vs.map (· % 2 ^ w) = vs :=
  (List.map_congr_left fun v hv => Nat.mod_eq_of_lt (h v hv)).trans (List.map_id' vs)

/-! ### Words -/

theorem ofWords_eq_joinBits (ws : List Word) : ofWords ws = joinBits 32 (ws.map BitVec.toNat) := by
  induction ws with
  | nil => rfl
  | cons w ws ih => rw [ofWords, ih, List.map_cons, joinBits, Nat.mod_eq_of_lt w.isLt]

/-- Bit `t` of a word string is bit `t mod 32` of word `floor(t / 32)` (rule R133). -/
theorem testBit_ofWords (ws : List Word) (t : Nat) :
    (ofWords ws).testBit t = (ws.getD (t / 32) 0).getLsbD (t % 32) := by
  have hget : (ws.map BitVec.toNat).getD (t / 32) 0 = (ws.getD (t / 32) 0).toNat := by
    rw [show (0 : Nat) = (0 : Word).toNat from rfl, List.getD_map]
  rw [ofWords_eq_joinBits, testBit_joinBits, hget, BitVec.testBit_toNat, List.length_map]
  by_cases ht : t < ws.length * 32
  · rw [decide_eq_true ht, Bool.true_and]
  · rw [decide_eq_false ht, Bool.false_and, List.getD_eq_default _ _ (by omega)]
    exact BitVec.getLsbD_zero.symm

/-- The packed words make the joined number: the bits beyond the values are 0 (rule R133). -/
theorem ofWords_packbits (vs : List Nat) (w : Nat) : ofWords (packbits vs w) = joinBits w vs := by
  rw [packbits, ofWords_wordsOf, Nat.mod_eq_of_lt]
  exact (joinBits_lt w vs).trans_le (Nat.pow_le_pow_right (by decide) (le_mul_ceilDiv _ (by decide)))

theorem unpackbits_packbits {w : Nat} {vs : List Nat} (h : ∀ v ∈ vs, v < 2 ^ w) :
    unpackbits (packbits vs w) vs.length w = vs := by
  rw [unpackbits, ofWords_packbits, splitBits_joinBits, map_mod_two_pow h]

/-- Value `i` of unpacked words is the group of `w` bits from bit `i·w` on (rule R133). -/
theorem unpackbits_getD {c w i : Nat} (ws : List Word) (hi : i < c) :
    (unpackbits ws c w).getD i 0 = ofWords ws / 2 ^ (i * w) % 2 ^ w := splitBits_getD _ hi

theorem testBit_unpackbits {c w i j : Nat} (ws : List Word) (hi : i < c) (hj : j < w) :
    ((unpackbits ws c w).getD i 0).testBit j = (ws.getD ((i * w + j) / 32) 0).getLsbD ((i * w + j) % 32) := by
  rw [unpackbits_getD ws hi, Nat.testBit_mod_two_pow, decide_eq_true hj, Bool.true_and, Nat.testBit_div_two_pow,
    testBit_ofWords, Nat.add_comm j]

/-! ### Bytes -/

/-- The bytes of a stream are the 8-bit groups of its number (rules R50, R133). -/
theorem streamBytes_toNat (ws : List Word) : (streamBytes ws).map BitVec.toNat = splitBits 8 (4 * ws.length) (ofWords ws) := by
  induction ws with
  | nil => rfl
  | cons w ws ih =>
    have hw := w.isLt
    have hdiv : ofWords (w :: ws) / 2 ^ (4 * 8) = ofWords ws := by rw [ofWords]; omega
    rw [streamBytes_cons, List.map_append, ih, List.length_cons, Nat.mul_succ, Nat.add_comm (4 * _), splitBits_append, hdiv,
      List.append_left_inj]
    simp only [wordBytes, splitBits, ofWords, List.map_cons, List.map_nil, BitVec.extractLsb'_toNat,
      Nat.shiftRight_eq_div_pow, List.cons.injEq, and_true]
    omega

/-- Packed bytes are the bytes of their words, up to three unused ones at the end (rules R52, R133). -/
theorem streamBytes_packbits {bs : List Nat} (h : ∀ b ∈ bs, b < 2 ^ 8) :
    ∃ pad, (streamBytes (packbits bs 8)).map BitVec.toNat = bs ++ pad ∧ pad.length < 4 := by
  obtain ⟨k, hk, hk4⟩ : ∃ k, 4 * (packbits bs 8).length = bs.length + k ∧ k < 4 := by
    rw [packbits_length, ceilDiv]
    exact ⟨4 * ((bs.length * 8 + (32 - 1)) / 32) - bs.length, by omega, by omega⟩
  refine ⟨splitBits 8 k (joinBits 8 bs / 2 ^ (bs.length * 8)), ?_, by rwa [splitBits_length]⟩
  rw [streamBytes_toNat, hk, splitBits_append, ofWords_packbits, splitBits_joinBits, map_mod_two_pow h]

/-! ### Slices -/

/-- A slice of a word is the field of its bits (rule R6). -/
theorem slice_toNat (v : Word) (hi lo : Nat) : slice v.toNat hi lo = (v.extractLsb' lo (hi - lo + 1)).toNat := by
  rw [slice, BitVec.extractLsb'_toNat, Nat.shiftRight_eq_div_pow]

/-- A slice of one bit is that bit (rule R6). -/
theorem slice_bit (v : Word) (k : Nat) : slice v.toNat k k = (v.getLsbD k).toNat := by
  rw [slice, Nat.sub_self, Nat.zero_add, Nat.pow_one, ← BitVec.testBit_toNat, Nat.toNat_testBit]

theorem slice_bit_ne_zero (v : Word) (k : Nat) : slice v.toNat k k ≠ 0 ↔ v.getLsbD k = true := by
  rw [slice_bit]
  cases v.getLsbD k <;> decide

theorem slice_ne_zero (v : Word) (hi lo : Nat) : slice v.toNat hi lo ≠ 0 ↔ v.extractLsb' lo (hi - lo + 1) ≠ 0 := by
  rw [slice_toNat, ne_eq, ne_eq, ← BitVec.toNat_inj]
  rfl

end Sys2Proof.Machine
end

section
/-! SUPPORT. The delta stage and the encoder's block: the reference, the maximum and the packed width, the exceptions, and the length
of a block (rules R136 to R145). -/

namespace Sys2Proof.Machine

/-! ### The delta stage -/

/-- Delta `i` is element `i` less the one before it, the first one less `prev` (rule R136). -/
theorem deltas_getD {w prev i : Nat} {xs : List Nat} (hi : i < xs.length) :
    (deltas w prev xs).getD i 0 = subMod w (xs.getD i 0) ((prev :: xs).getD i 0) := by
  induction xs generalizing prev i with
  | nil => exact absurd hi (Nat.not_lt_zero i)
  | cons x xs ih =>
    cases i with
    | zero => rfl
    | succ i => exact ih (Nat.lt_of_succ_lt_succ hi)

theorem deltas_lt {w prev : Nat} {xs : List Nat} : ∀ d ∈ deltas w prev xs, d < 2 ^ w := by
  induction xs generalizing prev with
  | nil => simp [deltas]
  | cons x xs ih =>
    intro d hd
    rcases List.mem_cons.1 hd with rfl | hd
    · exact subMod_lt _ _ _
    · exact ih d hd

/-- Summing the deltas modulo `2^w` gives the array back (rules R136, R163). -/
theorem undelta_deltas {w prev : Nat} {xs : List Nat} (h : ∀ x ∈ xs, x < 2 ^ w) : undelta w prev (deltas w prev xs) = xs := by
  induction xs generalizing prev with
  | nil => rfl
  | cons x xs ih =>
    obtain ⟨hx, hxs⟩ := List.forall_mem_cons.1 h
    rw [deltas, undelta, addMod_subMod hx, ih hxs]

theorem subMod_cast (w a b : Nat) : (subMod w a b : Int) = ((a : Int) - b) % 2 ^ w := by
  rw [subMod, Int.toNat_of_nonneg (Int.emod_nonneg _ (by positivity))]

/-! ### The reference -/

/-- Index `j` is the least one at which `f` is minimal over the list (rule R138). -/
def IsFirstLeast (f : Nat → Int) (ds : List Nat) (j : Nat) : Prop :=
  j < ds.length ∧ (∀ i, i < ds.length → f (ds.getD j 0) ≤ f (ds.getD i 0)) ∧ ∀ i, i < j → f (ds.getD j 0) < f (ds.getD i 0)

/-- An element strictly below the head leaves the head out. -/
theorem IsFirstLeast.cons_of_lt {f : Nat → Int} {m d : Nat} {ds : List Nat} {j : Nat} (h : IsFirstLeast f (d :: ds) j)
    (hlt : f d < f m) : IsFirstLeast f (m :: d :: ds) (j + 1) := by
  obtain ⟨hj, hle, hst⟩ := h
  have hm : f ((d :: ds).getD j 0) < f m := (hle 0 (Nat.succ_pos _)).trans_lt hlt
  refine ⟨Nat.succ_lt_succ hj, fun i hi => ?_, fun i hi => ?_⟩
  · cases i with
    | zero => exact hm.le
    | succ i => exact hle i (Nat.lt_of_succ_lt_succ hi)
  · cases i with
    | zero => exact hm
    | succ i => exact hst i (Nat.lt_of_succ_lt_succ hi)

/-- An element not below the head is passed over. -/
theorem IsFirstLeast.cons_of_le {f : Nat → Int} {m d : Nat} {ds : List Nat} {j : Nat} (h : IsFirstLeast f (m :: ds) j)
    (hle : f m ≤ f d) :
    ∃ j', IsFirstLeast f (m :: d :: ds) j' ∧ (m :: d :: ds).getD j' 0 = (m :: ds).getD j 0 := by
  obtain ⟨hj, hmin, hst⟩ := h
  cases j with
  | zero =>
    refine ⟨0, ⟨Nat.succ_pos _, fun i hi => ?_, fun i hi => absurd hi (Nat.not_lt_zero i)⟩, rfl⟩
    match i with
    | 0 => exact le_rfl
    | 1 => exact hle
    | i + 2 => exact hmin (i + 1) (Nat.lt_of_succ_lt_succ hi)
  | succ j =>
    have hm : f ((m :: ds).getD (j + 1) 0) < f m := hst 0 (Nat.succ_pos j)
    refine ⟨j + 2, ⟨Nat.succ_lt_succ hj, fun i hi => ?_, fun i hi => ?_⟩, rfl⟩
    · match i with
      | 0 => exact hm.le
      | 1 => exact hm.le.trans hle
      | i + 2 => exact hmin (i + 1) (Nat.lt_of_succ_lt_succ hi)
    · match i with
      | 0 => exact hm
      | 1 => exact hm.trans_le hle
      | i + 2 => exact hst (i + 1) (Nat.lt_of_succ_lt_succ hi)

/-- The search of rule R138 keeps the earliest of the least deltas. -/
theorem signedMin_isFirstLeast (w m : Nat) (ds : List Nat) :
    ∃ j, IsFirstLeast (sint w) (m :: ds) j ∧ signedMin w m ds = (m :: ds).getD j 0 := by
  induction ds generalizing m with
  | nil =>
    refine ⟨0, ⟨Nat.one_pos, fun i hi => ?_, fun i hi => absurd hi (Nat.not_lt_zero i)⟩, rfl⟩
    obtain rfl : i = 0 := Nat.lt_one_iff.1 hi
    exact le_rfl
  | cons d ds ih =>
    rw [signedMin]
    split
    next hlt =>
      obtain ⟨j, hj, hmin⟩ := ih d
      exact ⟨j + 1, hj.cons_of_lt hlt, hmin⟩
    next hle =>
      obtain ⟨j, hj, hmin⟩ := ih m
      obtain ⟨j', hj', hget⟩ := hj.cons_of_le (not_lt.1 hle)
      exact ⟨j', hj', hmin.trans hget.symm⟩

theorem reference_isFirstLeast (w : Nat) {ds : List Nat} (h : ds ≠ []) :
    ∃ j, IsFirstLeast (sint w) ds j ∧ reference w ds = ds.getD j 0 := by
  cases ds with
  | nil => exact absurd rfl h
  | cons d ds => exact signedMin_isFirstLeast w d ds

theorem reference_mem (w : Nat) {ds : List Nat} (h : ds ≠ []) : reference w ds ∈ ds := by
  obtain ⟨j, ⟨hj, -⟩, href⟩ := reference_isFirstLeast w h
  rw [href, List.getD_eq_getElem _ _ hj]
  exact List.getElem_mem hj

/-! ### The values -/

@[simp] theorem offsets_length (w : Nat) (ds : List Nat) : (offsets w ds).length = ds.length := List.length_map _

theorem offsets_lt {w : Nat} {ds : List Nat} : ∀ v ∈ offsets w ds, v < 2 ^ w :=
  List.forall_mem_map.2 fun _ _ => subMod_lt _ _ _

@[simp] theorem subMod_self (w a : Nat) : subMod w a a = 0 := by
  simp [subMod]

theorem zero_mem_offsets (w : Nat) {ds : List Nat} (h : ds ≠ []) : 0 ∈ offsets w ds :=
  List.mem_map.2 ⟨_, reference_mem w h, subMod_self w _⟩

/-- Adding the reference to the values gives the deltas back (rules R138, R163). -/
theorem offsets_addMod_reference {w : Nat} {ds : List Nat} (h : ∀ d ∈ ds, d < 2 ^ w) :
    (offsets w ds).map (fun v => addMod w v (reference w ds)) = ds := by
  rw [offsets, List.map_map]
  refine (List.map_congr_left fun d hd => ?_).trans (List.map_id' ds)
  exact (congrArg (· % 2 ^ w) (Nat.add_comm _ _)).trans (addMod_subMod (h d hd))

/-- A value is 0 exactly for a delta equal to the reference. -/
theorem subMod_eq_zero_iff {w a b : Nat} (ha : a < 2 ^ w) (hb : b < 2 ^ w) : subMod w a b = 0 ↔ a = b := by
  refine ⟨fun h => ?_, fun h => h ▸ subMod_self w a⟩
  rw [← addMod_subMod (b := b) ha, h, addMod, Nat.add_zero, Nat.mod_eq_of_lt hb]

/-- All values are 0 exactly when all deltas are equal (rule R139). -/
theorem offsets_eq_zero_iff {w : Nat} {ds : List Nat} (hne : ds ≠ []) (h : ∀ d ∈ ds, d < 2 ^ w) :
    (∀ v ∈ offsets w ds, v = 0) ↔ ∀ d ∈ ds, ∀ d' ∈ ds, d = d' := by
  have href := reference_mem w hne
  have hzero : ∀ d ∈ ds, subMod w d (reference w ds) = 0 ↔ d = reference w ds :=
    fun d hd => subMod_eq_zero_iff (h d hd) (h _ href)
  rw [offsets, List.forall_mem_map]
  constructor
  · intro hall d hd d' hd'
    exact ((hzero d hd).1 (hall d hd)).trans ((hzero d' hd').1 (hall d' hd')).symm
  · intro heq d hd
    exact (hzero d hd).2 (heq d hd _ href)

/-! ### The maximum width -/

/-- `bitlen v` is the least `k` with `v < 2^k` (rule R10). -/
theorem bitlen_le_iff {v k : Nat} : bitlen v ≤ k ↔ v < 2 ^ k := by
  unfold bitlen
  split
  next h => simp [h]
  next h => exact Nat.log2_lt h

theorem foldl_max_lt_iff {vs : List Nat} {a k : Nat} : vs.foldl max a < k ↔ a < k ∧ ∀ v ∈ vs, v < k := by
  induction vs generalizing a with
  | nil => simp
  | cons v vs ih => simp [ih, and_assoc]

/-- `mb` is the least number of bits that holds every value (rule R139). -/
theorem maxWidth_le_iff {vs : List Nat} {k : Nat} : maxWidth vs ≤ k ↔ ∀ v ∈ vs, v < 2 ^ k := by
  rw [maxWidth, bitlen_le_iff, foldl_max_lt_iff]
  exact and_iff_right (Nat.two_pow_pos k)

theorem maxWidth_offsets_le (w : Nat) (ds : List Nat) : maxWidth (offsets w ds) ≤ w := maxWidth_le_iff.2 offsets_lt

theorem maxWidth_offsets_eq_zero_iff {w : Nat} {ds : List Nat} (hne : ds ≠ []) (h : ∀ d ∈ ds, d < 2 ^ w) :
    maxWidth (offsets w ds) = 0 ↔ ∀ d ∈ ds, ∀ d' ∈ ds, d = d' := by
  rw [← offsets_eq_zero_iff hne h, ← Nat.le_zero, maxWidth_le_iff]
  simp only [Nat.pow_zero, Nat.lt_one_iff]

/-! ### The packed width -/

/-- No candidate from `c` up to `mb` is cheaper than `b`, and none of the same cost is larger (rule R140). -/
def IsLargestCheapest (vs : List Nat) (mb c b : Nat) : Prop :=
  b ≤ mb ∧ ∀ c', c ≤ c' → c' ≤ mb → cost vs mb b ≤ cost vs mb c' ∧ (cost vs mb c' = cost vs mb b → c' ≤ b)

/-- The search downwards keeps the largest of the cheapest candidates seen so far. -/
theorem pickWidth_isLargestCheapest {vs : List Nat} {mb c b : Nat} (hcb : c ≤ b) (h : IsLargestCheapest vs mb c b) :
    IsLargestCheapest vs mb 0 (pickWidth vs mb c b (cost vs mb b)) := by
  induction c generalizing b with
  | zero => exact h
  | succ c ih =>
    obtain ⟨hb, hbest⟩ := h
    rw [pickWidth]
    split
    next hlt =>
      refine ih le_rfl ⟨by omega, fun c' hc hc' => ?_⟩
      rcases Nat.eq_or_lt_of_le hc with rfl | hc
      · exact ⟨le_rfl, fun _ => le_rfl⟩
      · have := (hbest c' hc hc').1
        exact ⟨by omega, fun heq => by omega⟩
    next hge =>
      refine ih (by omega) ⟨hb, fun c' hc hc' => ?_⟩
      rcases Nat.eq_or_lt_of_le hc with rfl | hc
      · exact ⟨not_lt.1 hge, fun _ => by omega⟩
      · exact hbest c' hc hc'

theorem packedWidth_isLargestCheapest (vs : List Nat) (mb : Nat) : IsLargestCheapest vs mb 0 (packedWidth true vs mb) := by
  refine pickWidth_isLargestCheapest le_rfl ⟨le_rfl, fun c' hc hc' => ?_⟩
  obtain rfl : c' = mb := le_antisymm hc' hc
  exact ⟨le_rfl, fun _ => le_rfl⟩

theorem packedWidth_le (isPatched : Bool) (vs : List Nat) (mb : Nat) : packedWidth isPatched vs mb ≤ mb := by
  cases isPatched with
  | false => exact le_rfl
  | true => exact (packedWidth_isLargestCheapest vs mb).1

/-- The width the encoder takes costs at most as much as `mb` does (rule R140). -/
theorem cost_packedWidth_le (isPatched : Bool) (vs : List Nat) (mb : Nat) :
    cost vs mb (packedWidth isPatched vs mb) ≤ cost vs mb mb := by
  cases isPatched with
  | false => exact le_rfl
  | true => exact ((packedWidth_isLargestCheapest vs mb).2 mb (Nat.zero_le _) le_rfl).1

/-! ### The exceptions -/

theorem excCount_eq_zero_iff {vs : List Nat} {c : Nat} : excCount vs c = 0 ↔ ∀ v ∈ vs, v < 2 ^ c := by
  simp [excCount, List.countP_eq_zero]

theorem excCount_lt_length_iff {vs : List Nat} {c : Nat} : excCount vs c < vs.length ↔ ∃ v ∈ vs, v < 2 ^ c := by
  simp [excCount, List.countP_lt_length_iff]

/-- No value reaches past its maximum width. -/
theorem excCount_of_maxWidth_le {vs : List Nat} {c : Nat} (h : maxWidth vs ≤ c) : excCount vs c = 0 :=
  excCount_eq_zero_iff.2 (maxWidth_le_iff.1 h)

/-- The cost of the maximum width itself (rule R140). -/
theorem cost_maxWidth (vs : List Nat) : cost vs (maxWidth vs) (maxWidth vs) = 4 * maxWidth vs := by
  rw [cost, if_pos (excCount_of_maxWidth_le le_rfl), Nat.add_zero]

/-- The value 0 of the reference is never an exception, so a block never consists of exceptions only (rule R141). -/
theorem excCount_offsets_lt (w c : Nat) {ds : List Nat} (h : ds ≠ []) : excCount (offsets w ds) c < ds.length := by
  rw [← offsets_length w ds, excCount_lt_length_iff]
  exact ⟨0, zero_mem_offsets w h, Nat.two_pow_pos c⟩

/-- With an exception the packed width is below the maximum width (rule R140). -/
theorem lt_maxWidth_of_excCount_pos {vs : List Nat} {c : Nat} (h : 0 < excCount vs c) : c < maxWidth vs := by
  by_contra hle
  exact h.ne' (excCount_of_maxWidth_le (not_lt.1 hle))

theorem excCount_unpatched (vs : List Nat) : excCount vs (packedWidth false vs (maxWidth vs)) = 0 :=
  excCount_of_maxWidth_le le_rfl

@[simp] theorem exceptions_length (b i : Nat) (vs : List Nat) : (exceptions b i vs).length = excCount vs b := by
  induction vs generalizing i with
  | nil => rfl
  | cons v vs ih =>
    rw [exceptions, excCount, List.countP_cons]
    split
    next h => rw [List.length_cons, ih, if_pos (decide_eq_true h), excCount]
    next h => rw [ih, if_neg (by simpa using h), excCount, Nat.add_zero]

/-! ### The length of a block -/

theorem widthWords_eq (W : Width) : widthWords W = widthBits W / 32 := by cases W <;> rfl

/-- A block of 128 values: the descriptor, the reference and its cost (rule R145). -/
theorem blockWords_length (W : Width) (ref mb b : Nat) {vs : List Nat} (h : vs.length = 128) :
    (blockWords W ref mb b vs).length = 1 + widthBits W / 32 + cost vs mb b := by
  have hlow : ceilDiv (128 * b) 32 = 4 * b := by rw [ceilDiv]; omega
  rw [blockWords, cost, ← widthWords_eq]
  simp only [List.length_append, List.length_cons, wordsOf_length, packbits_length, List.length_map, exceptions_length, h, hlow]
  split
  · simp only [List.length_nil]; omega
  · simp only [List.length_append, packbits_length, List.length_map, exceptions_length, Nat.mul_comm _ 8]
    rw [ceilDiv_mul_mul _ 4 (by decide) (by decide)]
    omega

theorem encodeBlock_length (W : Width) (isPatched : Bool) {ds : List Nat} (h : ds.length = 128) :
    (encodeBlock W isPatched ds).length = 1 + widthBits W / 32 +
      cost (offsets (widthBits W) ds) (maxWidth (offsets (widthBits W) ds))
        (packedWidth isPatched (offsets (widthBits W) ds) (maxWidth (offsets (widthBits W) ds))) :=
  blockWords_length W _ _ _ ((offsets_length _ _).trans h)

/-- The cost of a block is at most the one of the maximum width, `4·mb` (rule R140). -/
theorem encodeBlock_length_le_maxWidth (W : Width) (isPatched : Bool) {ds : List Nat} (h : ds.length = 128) :
    (encodeBlock W isPatched ds).length ≤ 1 + widthBits W / 32 + 4 * maxWidth (offsets (widthBits W) ds) := by
  rw [encodeBlock_length W isPatched h, ← cost_maxWidth]
  exact Nat.add_le_add_left (cost_packedWidth_le _ _ _) _

theorem encodeBlock_length_le (W : Width) (isPatched : Bool) {ds : List Nat} (h : ds.length = 128) :
    (encodeBlock W isPatched ds).length ≤ 1 + widthBits W / 32 + 4 * widthBits W := by
  have hle := encodeBlock_length_le_maxWidth W isPatched h
  have hmb := maxWidth_offsets_le (widthBits W) ds
  omega

end Sys2Proof.Machine
end

section
/-! SUPPORT. The variable-byte code and how the decoder reads it, byte by byte, and the lengths of the encoder's parts (rules R145 to R152,
R158, R166, R167). -/

namespace Sys2Proof.Machine

/-! ### The code of one delta -/

theorem varbyteCode_of_ge {k d : Nat} (h : 128 ≤ d) : varbyteCode (k + 1) d = (d % 128 + 128) :: varbyteCode k (d / 128) := by
  rw [varbyteCode, if_pos h]

theorem varbyteCode_of_lt {k d : Nat} (h : d < 128) : varbyteCode k d = [d] := by
  cases k with
  | zero => rfl
  | succ k => rw [varbyteCode, if_neg (Nat.not_le.2 h)]

theorem bitlen_div_two_pow (d m : Nat) : bitlen (d / 2 ^ m) = bitlen d - m := by
  refine eq_of_forall_ge_iff fun k => ?_
  rw [bitlen_le_iff, Nat.div_lt_iff_lt_mul (Nat.two_pow_pos m), ← Nat.pow_add, ← bitlen_le_iff, Nat.sub_le_iff_le_add]

theorem varbyteCode_length_pos (k d : Nat) : 0 < (varbyteCode k d).length := by
  cases k with
  | zero => exact Nat.one_pos
  | succ k => rw [varbyteCode]; split <;> exact Nat.succ_pos _

theorem varbyteCode_length_le (k d : Nat) : (varbyteCode k d).length ≤ k + 1 := by
  induction k generalizing d with
  | zero => exact le_rfl
  | succ k ih =>
    rw [varbyteCode]
    split
    · exact Nat.succ_le_succ (ih _)
    · exact Nat.succ_le_succ (Nat.zero_le _)

/-- A property of the codes of the values that `k + 1` groups of 7 bits hold: it holds of a value of one group, and of a larger value if
it holds of what the first group leaves (rule R150). -/
theorem varbyteCode_induction {motive : (k d : Nat) → d < 2 ^ (7 * (k + 1)) → Prop}
    (last : ∀ {k d} hd, d < 128 → motive k d hd)
    (next : ∀ {k d} hd hd', 128 ≤ d → motive k (d / 128) hd' → motive (k + 1) d hd)
    {k d : Nat} (hd : d < 2 ^ (7 * (k + 1))) : motive k d hd := by
  induction k generalizing d with
  | zero => exact last hd hd
  | succ k ih =>
    rcases Nat.lt_or_ge d 128 with h | h
    · exact last hd h
    · refine next hd _ h (ih (Nat.div_lt_of_lt_mul ?_))
      rwa [Nat.mul_succ, Nat.pow_add, Nat.mul_comm] at hd

/-- The code has as many bytes as the value has groups of 7 bits, at least one (rule R150). -/
theorem varbyteCode_length {k d : Nat} (hd : d < 2 ^ (7 * (k + 1))) :
    (varbyteCode k d).length = max 1 (ceilDiv (bitlen d) 7) := by
  induction hd using varbyteCode_induction with
  | last _ h =>
    rw [varbyteCode_of_lt h, List.length_singleton, max_eq_left ((ceilDiv_le_iff (by decide)).2 (bitlen_le_iff.2 h))]
  | next _ _ h ih =>
    have h7 : 7 < bitlen _ := Nat.lt_of_not_le fun hle => Nat.not_lt.2 h (bitlen_le_iff.1 hle)
    rw [varbyteCode_of_ge h, List.length_cons, ih, show 128 = 2 ^ 7 from rfl, bitlen_div_two_pow, ceilDiv, ceilDiv]
    omega

/-- Each byte holds its group of 7 bits, and bit 7 says whether another byte follows (rule R150). -/
theorem varbyteCode_getD {k d : Nat} (hd : d < 2 ^ (7 * (k + 1))) {i : Nat} (hi : i < (varbyteCode k d).length) :
    (varbyteCode k d).getD i 0 < 256 ∧ (varbyteCode k d).getD i 0 % 128 = d / 2 ^ (7 * i) % 128 ∧
    (128 ≤ (varbyteCode k d).getD i 0 ↔ i + 1 < (varbyteCode k d).length) := by
  induction hd using varbyteCode_induction generalizing i with
  | last _ h =>
    rw [varbyteCode_of_lt h] at hi ⊢
    obtain rfl : i = 0 := Nat.lt_one_iff.1 hi
    simp only [List.getD_cons_zero, List.length_singleton, Nat.mul_zero, Nat.pow_zero, Nat.div_one, true_and]
    omega
  | @next k d _ _ h ih =>
    rw [varbyteCode_of_ge h] at hi ⊢
    cases i with
    | zero =>
      have := varbyteCode_length_pos k (d / 128)
      simp only [List.getD_cons_zero, List.length_cons, Nat.mul_zero, Nat.pow_zero, Nat.div_one]
      omega
    | succ i =>
      obtain ⟨hlt, hmod, hnext⟩ := ih (Nat.lt_of_succ_lt_succ hi)
      rw [List.getD_cons_succ, List.length_cons]
      refine ⟨hlt, hmod.trans ?_, hnext.trans (Nat.succ_lt_succ_iff).symm⟩
      rw [Nat.div_div_eq_div_mul, Nat.mul_succ, Nat.add_comm (7 * i), Nat.pow_add]

theorem varbyteCode_lt {k d : Nat} (hd : d < 2 ^ (7 * (k + 1))) : ∀ b ∈ varbyteCode k d, b < 256 := by
  intro b hb
  obtain ⟨i, hi, rfl⟩ := List.getElem_of_mem hb
  rw [← List.getD_eq_getElem _ 0 hi]
  exact (varbyteCode_getD hd hi).1

/-- `VBMAX` groups of 7 bits hold every delta (rule R150). -/
theorem two_pow_widthBits_le (W : Width) : 2 ^ widthBits W ≤ 2 ^ (7 * (vbMax W - 1 + 1)) := by cases W <;> decide

theorem varbyte_length_le (W : Width) (d : Nat) : (varbyte W d).length ≤ vbMax W := by
  have h := varbyteCode_length_le (vbMax W - 1) d
  cases W <;> exact h

/-! ### Reading one delta -/

/-- A byte with bit 7 set, not the last one allowed, announces another (rule R158). -/
theorem rdVarbyte_next {W : Width} {left k d b : Nat} {cur cur' : List Nat} {ws ws' : List Word} (hl : 0 < left) (hb : 128 ≤ b)
    (h : nextByte cur ws = .ok (b, cur', ws')) :
    rdVarbyte W (left + 1) k d cur ws = rdVarbyte W left (k + 1) (d + 2 ^ (7 * k) * (b % 128)) cur' ws' := by
  rw [rdVarbyte, h]
  simp [Except.bind, hl.ne', hb]

/-- A byte with bit 7 clear ends the value, where it fits `W` bits if it is the last one allowed (rule R158). -/
theorem rdVarbyte_last {W : Width} {left k d b : Nat} {cur cur' : List Nat} {ws ws' : List Word} (hb : b < 128)
    (hfit : left = 0 → b < 2 ^ (widthBits W - 7 * k)) (h : nextByte cur ws = .ok (b, cur', ws')) :
    rdVarbyte W (left + 1) k d cur ws = .ok (d + 2 ^ (7 * k) * b, cur', ws') := by
  have hok : ¬ (left = 0 ∧ (128 ≤ b ∨ 2 ^ (widthBits W - 7 * k) ≤ b)) := by
    rintro ⟨hl, h | h⟩
    · exact absurd hb (Nat.not_lt.2 h)
    · exact absurd (hfit hl) (Nat.not_lt.2 h)
  rw [rdVarbyte, h]
  simp [Except.bind, hok, hb, Nat.mod_eq_of_lt hb]

/-- The last byte allowed announces another or does not fit `W` bits (rule R158). -/
theorem rdVarbyte_overlong_last {W : Width} {k d b : Nat} {cur cur' : List Nat} {ws ws' : List Word}
    (hb : 128 ≤ b ∨ 2 ^ (widthBits W - 7 * k) ≤ b) (h : nextByte cur ws = .ok (b, cur', ws')) :
    rdVarbyte W 1 k d cur ws = .error .varbyte := by
  rw [rdVarbyte, h]
  simp [Except.bind, hb]

/-- Bytes that all announce another one, and then a last byte allowed that is too large (rule R158). -/
theorem rdVarbyte_overlong {W : Width} {bs rest : List Nat} {z k d : Nat} {cur : List Nat} {ws : List Word}
    (hbytes : cur ++ (streamBytes ws).map BitVec.toNat = bs ++ z :: rest) (hbs : ∀ b ∈ bs, 128 ≤ b)
    (hz : 128 ≤ z ∨ 2 ^ (widthBits W - 7 * (k + bs.length)) ≤ z) :
    rdVarbyte W (bs.length + 1) k d cur ws = .error .varbyte := by
  induction bs generalizing k d cur ws with
  | nil =>
    obtain ⟨cur', ws', hnext, -⟩ := nextByte_ok hbytes
    exact rdVarbyte_overlong_last hz hnext
  | cons b bs ih =>
    obtain ⟨cur', ws', hnext, hrest⟩ := nextByte_ok hbytes
    obtain ⟨hb, hbs⟩ := List.forall_mem_cons.1 hbs
    rw [List.length_cons, rdVarbyte_next (Nat.succ_pos _) hb hnext]
    refine ih hrest hbs (hz.imp_right fun hz => ?_)
    rwa [Nat.add_right_comm]

/-- Reading the code of a value gives the value and leaves the bytes after it (rules R150, R158). -/
theorem rdVarbyte_varbyteCode {W : Width} {left k d a : Nat} {cur rest : List Nat} {ws : List Word}
    (hk : widthBits W ≤ 7 * (k + left + 1)) (hd : d < 2 ^ (widthBits W - 7 * k))
    (hbytes : cur ++ (streamBytes ws).map BitVec.toNat = varbyteCode left d ++ rest) :
    ∃ cur' ws', rdVarbyte W (left + 1) k a cur ws = .ok (a + 2 ^ (7 * k) * d, cur', ws') ∧
      cur' ++ (streamBytes ws').map BitVec.toNat = rest := by
  induction left generalizing k d a cur ws with
  | zero =>
    obtain ⟨cur', ws', hnext, hrest⟩ := nextByte_ok hbytes
    have hb : d < 2 ^ 7 := hd.trans_le (Nat.pow_le_pow_right (by decide) (by omega))
    exact ⟨cur', ws', rdVarbyte_last hb (fun _ => hd) hnext, hrest⟩
  | succ left ih =>
    rcases Nat.lt_or_ge d 128 with h | h
    · rw [varbyteCode_of_lt h] at hbytes
      obtain ⟨cur', ws', hnext, hrest⟩ := nextByte_ok hbytes
      exact ⟨cur', ws', rdVarbyte_last h (fun _ => hd) hnext, hrest⟩
    · rw [varbyteCode_of_ge h] at hbytes
      obtain ⟨cur', ws', hnext, hrest⟩ := nextByte_ok hbytes
      have h7 : 7 < widthBits W - 7 * k := (Nat.pow_lt_pow_iff_right (by decide : 1 < 2)).1 (Nat.lt_of_le_of_lt h hd)
      have hdiv : d / 128 < 2 ^ (widthBits W - 7 * (k + 1)) := by
        rw [Nat.div_lt_iff_lt_mul (by decide), show 128 = 2 ^ 7 from rfl, ← Nat.pow_add]
        rwa [show widthBits W - 7 * (k + 1) + 7 = widthBits W - 7 * k by omega]
      obtain ⟨cur'', ws'', hread, hrest⟩ := ih (a := a + 2 ^ (7 * k) * ((d % 128 + 128) % 128)) (by omega) hdiv hrest
      have hsum : a + 2 ^ (7 * k) * ((d % 128 + 128) % 128) + 2 ^ (7 * (k + 1)) * (d / 128) = a + 2 ^ (7 * k) * d := by
        rw [Nat.add_mod_right, Nat.mod_mod, Nat.mul_succ, Nat.pow_add, Nat.mul_assoc, Nat.add_assoc, ← Nat.mul_add]
        exact congrArg (fun x => a + 2 ^ (7 * k) * x) (Nat.mod_add_div d 128)
      rw [hsum] at hread
      exact ⟨cur'', ws'', (rdVarbyte_next (Nat.succ_pos _) (Nat.le_add_left _ _) hnext).trans hread, hrest⟩

/-- Reading the code of a delta gives the delta and leaves the bytes after it (rules R150, R158). -/
theorem rdVarbyte_varbyte {W : Width} {d : Nat} {cur rest : List Nat} {ws : List Word} (hd : d < 2 ^ widthBits W)
    (hbytes : cur ++ (streamBytes ws).map BitVec.toNat = varbyte W d ++ rest) :
    ∃ cur' ws', rdVarbyte W (vbMax W) 0 0 cur ws = .ok (d, cur', ws') ∧ cur' ++ (streamBytes ws').map BitVec.toNat = rest := by
  obtain ⟨cur', ws', hread, hrest⟩ := rdVarbyte_varbyteCode (W := W) (k := 0) (a := 0) (by cases W <;> decide) hd hbytes
  have hmax : vbMax W - 1 + 1 = vbMax W := by cases W <;> rfl
  rw [Nat.zero_add, Nat.mul_zero, Nat.pow_zero, Nat.one_mul, hmax] at hread
  exact ⟨cur', ws', hread, hrest⟩

/-! ### The tail section -/

theorem decodeTail_succ_of_error {W : Width} {r : Nat} {cur : List Nat} {ws : List Word} {e : ErrCode}
    (h : rdVarbyte W (vbMax W) 0 0 cur ws = .error e) : decodeTail W (r + 1) cur ws = .error e := by
  rw [decodeTail, h]
  rfl

theorem decodeTail_succ_of_ok {W : Width} {r d : Nat} {cur cur' : List Nat} {ds : List Nat} {ws ws' ws'' : List Word}
    (h : rdVarbyte W (vbMax W) 0 0 cur ws = .ok (d, cur', ws')) (ht : decodeTail W r cur' ws' = .ok (ds, ws'')) :
    decodeTail W (r + 1) cur ws = .ok (d :: ds, ws'') := by
  rw [decodeTail, h]
  change (decodeTail W r cur' ws').bind _ = _
  rw [ht]
  rfl

/-- Reading as many values as were coded gives them and leaves the bytes after them (rule R158). -/
theorem decodeTail_varbytes {W : Width} {ds pad cur : List Nat} {ws : List Word} (hds : ∀ d ∈ ds, d < 2 ^ widthBits W)
    (hbytes : cur ++ (streamBytes ws).map BitVec.toNat = ds.flatMap (varbyte W) ++ pad) :
    ∃ cur' ws', decodeTail W ds.length cur ws = .ok (ds, ws') ∧ cur' ++ (streamBytes ws').map BitVec.toNat = pad := by
  induction ds generalizing cur ws with
  | nil => exact ⟨cur, ws, rfl, hbytes⟩
  | cons d ds ih =>
    obtain ⟨hd, hds⟩ := List.forall_mem_cons.1 hds
    rw [List.flatMap_cons, List.append_assoc] at hbytes
    obtain ⟨cur', ws', hread, hrest⟩ := rdVarbyte_varbyte hd hbytes
    obtain ⟨cur'', ws'', htail, hpad⟩ := ih hds hrest
    exact ⟨cur'', ws'', decodeTail_succ_of_ok hread htail, hpad⟩

theorem varbyte_lt {W : Width} {d : Nat} (hd : d < 2 ^ widthBits W) : ∀ b ∈ varbyte W d, b < 2 ^ 8 :=
  varbyteCode_lt (hd.trans_le (two_pow_widthBits_le W))

/-- The decoder reads the tail section to its end: fewer than four bytes are left over, so no word is (rules R151, R158, R159). -/
theorem decodeTail_encodeTail {W : Width} {ds : List Nat} (hds : ∀ d ∈ ds, d < 2 ^ widthBits W) :
    decodeTail W ds.length [] (encodeTail W ds) = .ok (ds, []) := by
  have hbytes : ∀ b ∈ ds.flatMap (varbyte W), b < 2 ^ 8 := by
    intro b hb
    obtain ⟨d, hd, hb⟩ := List.mem_flatMap.1 hb
    exact varbyte_lt (hds d hd) b hb
  obtain ⟨pad, hpad, hshort⟩ := streamBytes_packbits hbytes
  obtain ⟨cur', ws', hread, hrest⟩ := decodeTail_varbytes (cur := []) hds hpad
  have hlen := congrArg List.length hrest
  rw [List.length_append, List.length_map, streamBytes_length] at hlen
  obtain rfl : ws' = [] := List.length_eq_zero_iff.1 (by omega)
  exact hread

/-! ### The lengths of the encoder's parts -/

/-- The tail section has the bytes of its codes, four to a word (rule R151). -/
theorem encodeTail_length (W : Width) (ds : List Nat) :
    (encodeTail W ds).length = ceilDiv (ds.flatMap (varbyte W)).length 4 := by
  rw [encodeTail, packbits_length, Nat.mul_comm]
  exact ceilDiv_mul_mul _ 4 (by decide) (by decide)

@[simp] theorem encodeTail_nil (W : Width) : encodeTail W [] = [] :=
  List.length_eq_zero_iff.1 ((encodeTail_length W []).trans (ceilDiv_zero 4))

theorem flatMap_varbyte_length_le (W : Width) (ds : List Nat) : (ds.flatMap (varbyte W)).length ≤ ds.length * vbMax W := by
  induction ds with
  | nil => exact Nat.zero_le _
  | cons d ds ih =>
    rw [List.flatMap_cons, List.length_append, List.length_cons, Nat.succ_mul, Nat.add_comm]
    exact Nat.add_le_add ih (varbyte_length_le W d)

theorem encodeTail_length_le (W : Width) (ds : List Nat) : (encodeTail W ds).length ≤ ceilDiv (ds.length * vbMax W) 4 :=
  encodeTail_length W ds ▸ ceilDiv_mono 4 (flatMap_varbyte_length_le W ds)

/-- A tail with an element has a word (rule R167). -/
theorem encodeTail_length_pos (W : Width) {ds : List Nat} (h : ds ≠ []) : 0 < (encodeTail W ds).length := by
  cases ds with
  | nil => exact absurd rfl h
  | cons d ds =>
    have hd : 0 < (varbyte W d).length := varbyteCode_length_pos _ d
    rw [encodeTail_length, List.flatMap_cons, List.length_append, ceilDiv]
    omega

theorem encodeBlocks_length_le (W : Width) (isPatched : Bool) {nb : Nat} {ds : List Nat} (h : 128 * nb ≤ ds.length) :
    (encodeBlocks W isPatched nb ds).length ≤ nb * (1 + widthBits W / 32 + 4 * widthBits W) := by
  induction nb generalizing ds with
  | zero => exact Nat.zero_le _
  | succ nb ih =>
    rw [encodeBlocks, List.length_append, Nat.succ_mul, Nat.add_comm]
    refine Nat.add_le_add (ih ?_) (encodeBlock_length_le W isPatched ?_)
    · rw [List.length_drop]; omega
    · rw [List.length_take]; omega

/-- A block has at least a descriptor and a word of the reference (rule R167). -/
theorem two_le_encodeBlock_length (W : Width) (isPatched : Bool) {ds : List Nat} (h : ds.length = 128) :
    2 ≤ (encodeBlock W isPatched ds).length := by
  rw [encodeBlock_length W isPatched h]
  cases W <;> simp only [widthBits] <;> omega

/-! ### The parts of a stream -/

/-- The deltas coded in the tail section (rules R132, R152). -/
def tailDeltas (p : Preset) (ds : List Nat) : List Nat :=
  (ds.drop (128 * blockCount p ds.length)).take (tailCount p ds.length)

/-- The blocks do not reach past the array (rule R132). -/
theorem blockCount_mul_le (p : Preset) (n : Nat) : 128 * blockCount p n ≤ n := by
  unfold blockCount
  split
  · exact Nat.mul_div_le n 128
  · exact Nat.zero_le n

theorem tailCount_le (p : Preset) (n : Nat) : tailCount p n ≤ n - 128 * blockCount p n := by
  unfold tailCount
  split
  · exact le_rfl
  · exact Nat.zero_le _

@[simp] theorem tailDeltas_length (p : Preset) (ds : List Nat) : (tailDeltas p ds).length = tailCount p ds.length := by
  rw [tailDeltas, List.length_take, List.length_drop, min_eq_left (tailCount_le p _)]

/-- The tail section codes the tail deltas, and is empty without a tail stage (rule R152). -/
theorem encodeTail_tailDeltas (W : Width) (p : Preset) (ds : List Nat) :
    encodeTail W (tailDeltas p ds) =
      if tailStage p then encodeTail W (ds.drop (128 * blockCount p ds.length)) else [] := by
  unfold tailDeltas tailCount
  split
  · rw [← List.length_drop, List.take_length]
  · rw [List.take_zero, encodeTail_nil]

/-- The stream of a non-empty array: header, blocks, tail section (rule R132). -/
theorem encodeStream_eq (W : Width) (p : Preset) {xs : List Nat} (h : xs ≠ []) :
    encodeStream W p xs = headerWord W p xs.length ::
      (encodeBlocks W (patched p) (blockCount p xs.length) (deltas (widthBits W) 0 xs) ++
        encodeTail W (tailDeltas p (deltas (widthBits W) 0 xs))) := by
  rw [encodeTail_tailDeltas, encodeStream, if_neg (by simpa using h), deltas_length]
  rfl

theorem encodeStream_length (W : Width) (p : Preset) {xs : List Nat} (h : xs ≠ []) :
    (encodeStream W p xs).length =
      1 + (encodeBlocks W (patched p) (blockCount p xs.length) (deltas (widthBits W) 0 xs)).length +
        (encodeTail W (tailDeltas p (deltas (widthBits W) 0 xs))).length := by
  rw [encodeStream_eq W p h, List.length_cons, List.length_append]
  omega

/-- The bound of rule R166 on the length of a stream. -/
theorem encodeStream_length_le (W : Width) (p : Preset) {xs : List Nat} (h : xs ≠ []) :
    (encodeStream W p xs).length ≤
      1 + blockCount p xs.length * (1 + widthBits W / 32 + 4 * widthBits W) + ceilDiv (tailCount p xs.length * vbMax W) 4 := by
  have hblocks : (encodeBlocks W (patched p) (blockCount p xs.length) (deltas (widthBits W) 0 xs)).length ≤ _ :=
    encodeBlocks_length_le W (patched p) (by rw [deltas_length]; exact blockCount_mul_le p _)
  have htail := encodeTail_length_le W (tailDeltas p (deltas (widthBits W) 0 xs))
  rw [tailDeltas_length, deltas_length] at htail
  rw [encodeStream_length W p h]
  omega

/-- The bound of rule R166 for an accepted count: at most 259 words for 128 elements, at most 10 bytes for one. -/
theorem streamBound_lt (W : Width) (p : Preset) {n : Nat} (h : n ≤ 2 ^ 28 - 1) :
    1 + blockCount p n * (1 + widthBits W / 32 + 4 * widthBits W) + ceilDiv (tailCount p n * vbMax W) 4 < 2 ^ 30 := by
  have hb := blockCount_mul_le p n
  have ht := tailCount_le p n
  cases W <;> simp only [widthBits, vbMax, ceilDiv] <;> omega

/-- A non-empty array of an accepted length has a block or a tail element (rule R167). -/
theorem two_le_encodeStream_length (W : Width) (p : Preset) {xs : List Nat} (h : xs ≠ []) (hreq : xs.length % blockReq p = 0) :
    2 ≤ (encodeStream W p xs).length := by
  have hn := List.length_pos_iff.2 h
  have hparts := blockCount_tailCount hreq
  rw [encodeStream_length W p h]
  cases hnb : blockCount p xs.length with
  | zero =>
    have hne : tailDeltas p (deltas (widthBits W) 0 xs) ≠ [] := by
      rw [ne_eq, ← List.length_eq_zero_iff, tailDeltas_length, deltas_length]
      omega
    have := encodeTail_length_pos W hne
    omega
  | succ nb =>
    have h128 : ((deltas (widthBits W) 0 xs).take 128).length = 128 := by
      rw [List.length_take, deltas_length]
      omega
    have := two_le_encodeBlock_length W (patched p) h128
    rw [encodeBlocks, List.length_append]
    omega

end Sys2Proof.Machine
end

section
/-! SUPPORT. The decoder on what the encoder wrote: the header, the descriptor, the exceptions, a block, the whole stream; and the decoder
on a wrong header or descriptor (rules R153 to R161). -/

namespace Sys2Proof.Machine

/-! ### The header -/

/-- The stream's first word is the header, and its test comes before everything else (rule R155). -/
theorem decodeStream_of_header_error {W : Width} {p : Preset} {n : Nat} {h : Word} {e : ErrCode} (ws : List Word) (hn : 0 < n)
    (hc : checkHeader W p n h = .error e) : decodeStream W p n (h :: ws) = .error e := by
  rw [decodeStream, if_neg hn.ne']
  change (checkHeader W p n h).bind _ = _
  rw [hc]
  rfl

theorem presetSel_lt (p : Preset) : presetSel p < 4 := by cases p <;> decide

theorem w64Bit_eq (W : Width) : w64Bit W = (decide (W = .w64)).toNat := by cases W <;> rfl

/-- The conditions of rule R155 as bits of the header word. -/
theorem checkHeader_eq (W : Width) (p : Preset) (n : Nat) (h : Word) :
    checkHeader W p n h =
      if h.getLsbD 31 = true ∨ (h.extractLsb' 28 2).toNat ≠ presetSel p ∨ h.getLsbD 30 ≠ decide (W = .w64) then .error .header
      else if (h.extractLsb' 0 28).toNat ≠ n then .error .count
      else .ok () := by
  have hw64 : slice h.toNat 30 30 ≠ w64Bit W ↔ h.getLsbD 30 ≠ decide (W = .w64) := by
    rw [slice_bit, w64Bit_eq]
    cases h.getLsbD 30 <;> cases decide (W = .w64) <;> decide
  simp only [checkHeader, slice_bit_ne_zero, hw64]
  simp only [slice_toNat, Nat.reduceSub, Nat.reduceAdd]

/-- The encoder's header passes the test (rules R134, R155). -/
theorem checkHeader_headerWord (W : Width) (p : Preset) {n : Nat} (hn : n ≤ 2 ^ 28 - 1) :
    checkHeader W p n (headerWord W p n) = .ok () := by
  have hsel := presetSel_lt p
  have hw64 : w64Bit W < 2 := by cases W <;> decide
  have hnat : (headerWord W p n).toNat = n + 2 ^ 28 * presetSel p + 2 ^ 30 * w64Bit W := by
    rw [headerWord, BitVec.toNat_ofNat, Nat.mod_eq_of_lt (by omega)]
  rw [checkHeader, hnat, if_neg, if_neg]
  · simp only [slice]; omega
  · simp only [slice]; omega

/-! ### The descriptor -/

theorem decodeBlock_of_descriptor_error {W : Width} {isPatched : Bool} {D : Word} (ws : List Word)
    (h : descriptorOk W isPatched D.toNat = false) : decodeBlock W isPatched (D :: ws) = .error .descriptor := by
  change (if descriptorOk W isPatched D.toNat = true then _ else _) = _
  rw [h]
  rfl

/-- The conditions of rule R156 on the fields of a descriptor. -/
theorem descriptorOk_eq_false_iff (W : Width) (isPatched : Bool) (D : Nat) :
    descriptorOk W isPatched D = false ↔
      slice D 7 7 ≠ 0 ∨ slice D 15 15 ≠ 0 ∨ slice D 31 24 ≠ 0 ∨ slice D 14 8 < slice D 6 0 ∨ widthBits W < slice D 14 8 ∨
      128 < slice D 23 16 ∨ (0 < slice D 23 16 ∧ slice D 6 0 = slice D 14 8) ∨ (0 < slice D 23 16 ∧ isPatched = false) := by
  simp only [descriptorOk, Bool.not_eq_false', Bool.or_eq_true, Bool.and_eq_true, decide_eq_true_eq, Bool.not_eq_true',
    or_assoc]

/-- The fields of the encoder's descriptor, the reserved bits being 0 (rule R141). -/
theorem descriptorWord_fields {b mb e : Nat} (hb : b < 2 ^ 7) (hmb : mb < 2 ^ 7) (he : e < 2 ^ 8) :
    slice (descriptorWord b mb e).toNat 6 0 = b ∧ slice (descriptorWord b mb e).toNat 14 8 = mb ∧
    slice (descriptorWord b mb e).toNat 23 16 = e ∧ slice (descriptorWord b mb e).toNat 7 7 = 0 ∧
    slice (descriptorWord b mb e).toNat 15 15 = 0 ∧ slice (descriptorWord b mb e).toNat 31 24 = 0 := by
  have hnat : (descriptorWord b mb e).toNat = b + 2 ^ 8 * mb + 2 ^ 16 * e := by
    rw [descriptorWord, BitVec.toNat_ofNat, Nat.mod_eq_of_lt (by omega)]
  rw [hnat]
  simp only [slice]
  refine ⟨?_, ?_, ?_, ?_, ?_, ?_⟩ <;> omega

/-! ### Reading words -/

theorem rdMany_append {k : Nat} {ws : List Word} (hk : ws.length = k) (rest : List Word) :
    rdMany k (ws ++ rest) = .ok (ws, rest) := by
  subst hk
  rw [rdMany_eq, if_pos (by rw [List.length_append]; omega), List.take_left, List.drop_left]

/-! ### The exceptions -/

/-- Exceptions stand at rising positions of the block, from the first position on (rule R143). -/
theorem positionsOk_exceptions {b i lo : Nat} {vs : List Nat} (hlo : lo ≤ i) (hlen : i + vs.length ≤ 128) :
    positionsOk lo ((exceptions b i vs).map fun x => x.1) = true := by
  induction vs generalizing i lo with
  | nil => rfl
  | cons v vs ih =>
    rw [List.length_cons] at hlen
    rw [exceptions]
    split
    · rw [List.map_cons, positionsOk, ih le_rfl (by omega), Bool.and_true, decide_eq_true_eq]
      omega
    · exact ih (by omega) (by omega)

theorem exceptions_mem {b i : Nat} {vs : List Nat} {x : Nat × Nat} (h : x ∈ exceptions b i vs) :
    x.1 < i + vs.length ∧ x.2 ∈ vs := by
  induction vs generalizing i with
  | nil => cases h
  | cons v vs ih =>
    have htail (h : x ∈ exceptions b (i + 1) vs) : x.1 < i + (v :: vs).length ∧ x.2 ∈ v :: vs := by
      obtain ⟨hpos, hmem⟩ := ih h
      exact ⟨by rw [List.length_cons]; omega, List.mem_cons_of_mem v hmem⟩
    rw [exceptions] at h
    split at h
    · rcases List.mem_cons.1 h with rfl | h
      · exact ⟨by rw [List.length_cons]; omega, List.mem_cons_self⟩
      · exact htail h
    · exact htail h

theorem addAt_append (pre : List Nat) (x v : Nat) (vs : List Nat) :
    addAt pre.length x (pre ++ v :: vs) = pre ++ (v + x) :: vs := by
  induction pre with
  | nil => rfl
  | cons u pre ih => exact congrArg (u :: ·) ih

/-- Putting the high parts back on the low bits gives the values (rules R142, R144, R156). -/
theorem patch_exceptions (b : Nat) (pre vs : List Nat) :
    patch b ((exceptions b pre.length vs).map fun x => (x.1, x.2 / 2 ^ b)) (pre ++ vs.map fun v => v % 2 ^ b) = pre ++ vs := by
  induction vs generalizing pre with
  | nil => simp [exceptions, patch]
  | cons v vs ih =>
    have hnext : patch b ((exceptions b (pre.length + 1) vs).map fun x => (x.1, x.2 / 2 ^ b))
        (pre ++ v :: vs.map fun v => v % 2 ^ b) = pre ++ v :: vs := by
      simpa using ih (pre ++ [v])
    rw [exceptions, List.map_cons]
    split
    next h => rw [List.map_cons, patch, addAt_append, Nat.mod_add_div, hnext]
    next h => rw [Nat.mod_eq_of_lt (Nat.not_le.1 h), hnext]

/-- The exception words the encoder writes (rules R143, R144). -/
def exceptionWords (mb b : Nat) (vs : List Nat) : List Word :=
  if excCount vs b = 0 then []
  else packbits ((exceptions b 0 vs).map fun x => x.1) 8 ++ packbits ((exceptions b 0 vs).map fun x => x.2 / 2 ^ b) (mb - b)

theorem blockWords_eq (W : Width) (ref mb b : Nat) (vs : List Nat) :
    blockWords W ref mb b vs = descriptorWord b mb (excCount vs b) ::
      (wordsOf (widthWords W) ref ++ (packbits (vs.map fun v => v % 2 ^ b) b ++ exceptionWords mb b vs)) := by
  simp only [blockWords, exceptionWords, exceptions_length, List.cons_append, List.append_assoc]

/-- The decoder puts the exceptions back (rule R156). -/
theorem rdExceptions_exceptionWords {mb b : Nat} {vs : List Nat} (hlen : vs.length = 128) (hb : b ≤ mb)
    (hvs : ∀ v ∈ vs, v < 2 ^ mb) (rest : List Word) :
    rdExceptions b mb (excCount vs b) (vs.map fun v => v % 2 ^ b) (exceptionWords mb b vs ++ rest) = .ok (vs, rest) := by
  unfold rdExceptions exceptionWords
  split
  next h0 => rw [List.nil_append, map_mod_two_pow (excCount_eq_zero_iff.1 h0)]
  next h0 =>
    have hpos : ∀ x ∈ (exceptions b 0 vs).map (fun x => x.1), x < 2 ^ 8 :=
      List.forall_mem_map.2 fun x hx => by have := (exceptions_mem hx).1; omega
    have hhigh : ∀ x ∈ (exceptions b 0 vs).map (fun x => x.2 / 2 ^ b), x < 2 ^ (mb - b) :=
      List.forall_mem_map.2 fun x hx => by
        rw [Nat.div_lt_iff_lt_mul (Nat.two_pow_pos b), ← Nat.pow_add, Nat.sub_add_cancel hb]
        exact hvs _ (exceptions_mem hx).2
    have hps := unpackbits_packbits hpos
    have hhs := unpackbits_packbits hhigh
    rw [List.length_map, exceptions_length] at hps hhs
    have hpl : (packbits ((exceptions b 0 vs).map fun x => x.1) 8).length = ceilDiv (excCount vs b) 4 := by
      rw [packbits_length, List.length_map, exceptions_length, Nat.mul_comm]
      exact ceilDiv_mul_mul _ 4 (by decide) (by decide)
    have hhl : (packbits ((exceptions b 0 vs).map fun x => x.2 / 2 ^ b) (mb - b)).length =
        ceilDiv (excCount vs b * (mb - b)) 32 := by
      rw [packbits_length, List.length_map, exceptions_length]
    rw [List.append_assoc, rdMany_append hpl]
    simp only [Except.bind]
    rw [hps, if_pos (positionsOk_exceptions le_rfl (by omega)), rdMany_append hhl]
    simp only
    rw [hhs, List.zip_map']
    exact congrArg (fun us => Except.ok (us, rest)) (patch_exceptions b [] vs)

/-! ### A block -/

theorem ofWords_reference {W : Width} {ref : Nat} (h : ref < 2 ^ widthBits W) : ofWords (wordsOf (widthWords W) ref) = ref := by
  rw [ofWords_wordsOf, Nat.mod_eq_of_lt]
  cases W <;> exact h

theorem unpackbits_low (b : Nat) (vs : List Nat) :
    unpackbits (packbits (vs.map fun v => v % 2 ^ b) b) vs.length b = vs.map fun v => v % 2 ^ b := by
  have hlt : ∀ u ∈ vs.map (fun v => v % 2 ^ b), u < 2 ^ b :=
    List.forall_mem_map.2 fun v _ => Nat.mod_lt _ (Nat.two_pow_pos b)
  simpa using unpackbits_packbits hlt

/-- The decoder gives back a block of 128 values, with the reference added (rule R156). -/
theorem decodeBlock_blockWords {W : Width} {isPatched : Bool} {ref mb b : Nat} {vs : List Nat} (hlen : vs.length = 128)
    (href : ref < 2 ^ widthBits W) (hmb : mb ≤ widthBits W) (hb : b ≤ mb) (hvs : ∀ v ∈ vs, v < 2 ^ mb)
    (hexc : 0 < excCount vs b → b ≠ mb ∧ isPatched = true) (rest : List Word) :
    decodeBlock W isPatched (blockWords W ref mb b vs ++ rest) = .ok (vs.map fun v => addMod (widthBits W) v ref, rest) := by
  have hW : widthBits W ≤ 64 := by cases W <;> decide
  have he : excCount vs b ≤ 128 := hlen ▸ List.countP_le_length
  obtain ⟨fb, fmb, fe, f7, f15, f24⟩ :=
    descriptorWord_fields (b := b) (mb := mb) (e := excCount vs b) (by omega) (by omega) (by omega)
  have hok : descriptorOk W isPatched (descriptorWord b mb (excCount vs b)).toNat = true := by
    rw [← Bool.not_eq_false, descriptorOk_eq_false_iff, fb, fmb, fe]
    rintro (h | h | h | h | h | h | ⟨hpos, h⟩ | ⟨hpos, h⟩)
    · exact h f7
    · exact h f15
    · exact h f24
    · omega
    · omega
    · omega
    · exact (hexc hpos).1 h
    · exact Bool.false_ne_true (h.symm.trans (hexc hpos).2)
  have hlow : (packbits (vs.map fun v => v % 2 ^ b) b).length = 4 * b := by
    rw [packbits_length, List.length_map, hlen, ceilDiv]
    omega
  rw [blockWords_eq]
  simp only [decodeBlock, List.cons_append, List.append_assoc, rd, Except.bind, hok, if_true, fb, fmb, fe]
  rw [rdMany_append (wordsOf_length _ _)]
  simp only
  rw [rdMany_append hlow, ← hlen]
  simp only
  rw [unpackbits_low, rdExceptions_exceptionWords hlen hb hvs, ofWords_reference href]

/-- A coded block of 128 deltas is given back (rules R137 to R144, R156). -/
theorem decodeBlock_encodeBlock {W : Width} {isPatched : Bool} {ds : List Nat} (hlen : ds.length = 128)
    (hds : ∀ d ∈ ds, d < 2 ^ widthBits W) (rest : List Word) :
    decodeBlock W isPatched (encodeBlock W isPatched ds ++ rest) = .ok (ds, rest) := by
  have hne : ds ≠ [] := List.ne_nil_of_length_pos (by omega)
  refine (decodeBlock_blockWords ((offsets_length _ ds).trans hlen) (hds _ (reference_mem _ hne)) (maxWidth_offsets_le _ ds)
    (packedWidth_le isPatched _ _) (maxWidth_le_iff.1 le_rfl) (fun hpos => ⟨(lt_maxWidth_of_excCount_pos hpos).ne, ?_⟩)
    rest).trans ?_
  · cases isPatched with
    | false => exact absurd (excCount_unpatched _) hpos.ne'
    | true => rfl
  · rw [offsets_addMod_reference hds]

/-- Coded blocks are given back (rule R156). -/
theorem decodeBlocks_encodeBlocks {W : Width} {isPatched : Bool} {nb : Nat} {ds : List Nat} (hlen : 128 * nb ≤ ds.length)
    (hds : ∀ d ∈ ds, d < 2 ^ widthBits W) (rest : List Word) :
    decodeBlocks W isPatched nb (encodeBlocks W isPatched nb ds ++ rest) = .ok (ds.take (128 * nb), rest) := by
  induction nb generalizing ds with
  | zero => rfl
  | succ nb ih =>
    have hfirst : (ds.take 128).length = 128 := by rw [List.length_take]; omega
    have hrest : 128 * nb ≤ (ds.drop 128).length := by rw [List.length_drop]; omega
    rw [encodeBlocks, List.append_assoc, decodeBlocks,
      decodeBlock_encodeBlock hfirst fun d hd => hds d (List.mem_of_mem_take hd)]
    simp only [Except.bind]
    rw [ih hrest fun d hd => hds d (List.mem_of_mem_drop hd), Nat.mul_succ, Nat.add_comm (128 * nb), List.take_add]

/-! ### The stream -/

/-- What a stream of which each part is read as it should be decodes to (rules R155 to R159). -/
theorem decodeStream_of_parts {W : Width} {p : Preset} {n : Nat} {h : Word} {ws ws' : List Word} {bl tl : List Nat} (hn : 0 < n)
    (hh : checkHeader W p n h = .ok ()) (hb : decodeBlocks W (patched p) (blockCount p n) ws = .ok (bl, ws'))
    (ht : decodeTail W (tailCount p n) [] ws' = .ok (tl, [])) :
    decodeStream W p n (h :: ws) = .ok (undelta (widthBits W) 0 (bl ++ tl)) := by
  rw [decodeStream, if_neg hn.ne']
  simp only [rd, Except.bind]
  rw [hh]
  simp only
  rw [hb]
  simp only
  rw [ht]
  rfl

/-- The deltas of the blocks and of the tail are all deltas of an array of accepted length (rule R132). -/
theorem take_append_tailDeltas {p : Preset} {ds : List Nat} (h : ds.length % blockReq p = 0) :
    ds.take (128 * blockCount p ds.length) ++ tailDeltas p ds = ds := by
  rw [tailDeltas, ← List.take_add, blockCount_tailCount h, List.take_length]

theorem tailDeltas_subset {p : Preset} {ds : List Nat} {d : Nat} (h : d ∈ tailDeltas p ds) : d ∈ ds :=
  List.mem_of_mem_drop (List.mem_of_mem_take h)

/-- The round trip of rule R161, for a non-empty array. -/
theorem decodeStream_encodeStream {W : Width} {p : Preset} {xs : List Nat} (hne : xs ≠ []) (hlen : xs.length ≤ 2 ^ 28 - 1)
    (hreq : xs.length % blockReq p = 0) (hxs : ∀ x ∈ xs, x < 2 ^ widthBits W) :
    decodeStream W p xs.length (encodeStream W p xs) = .ok xs := by
  have hdl := deltas_length (widthBits W) 0 xs
  have hdlt : ∀ d ∈ deltas (widthBits W) 0 xs, d < 2 ^ widthBits W := deltas_lt
  have hblocks := decodeBlocks_encodeBlocks (W := W) (isPatched := patched p)
    ((blockCount_mul_le p xs.length).trans_eq hdl.symm) hdlt (encodeTail W (tailDeltas p (deltas (widthBits W) 0 xs)))
  have htail : decodeTail W (tailCount p xs.length) [] (encodeTail W (tailDeltas p (deltas (widthBits W) 0 xs))) =
      .ok (tailDeltas p (deltas (widthBits W) 0 xs), []) := by
    have h := decodeTail_encodeTail (W := W) fun d hd => hdlt d (tailDeltas_subset (p := p) hd)
    rwa [tailDeltas_length, hdl] at h
  have hall := take_append_tailDeltas (p := p) (ds := deltas (widthBits W) 0 xs) (hdl ▸ hreq)
  rw [hdl] at hall
  rw [encodeStream_eq W p hne,
    decodeStream_of_parts (List.length_pos_iff.2 hne) (checkHeader_headerWord W p hlen) hblocks htail, hall, undelta_deltas hxs]

end Sys2Proof.Machine
end

section
/-! SUPPORT. What DEC32 and DEC64 do to a state with another IBUF (rules R153, R178). -/

namespace Sys2Proof.Machine

theorem State.scrambleOutput_withIbuf (s : State) (m : Memory) (n : Nat) :
    (s.withIbuf m).scrambleOutput n = (s.scrambleOutput n).withIbuf m := by
  unfold State.scrambleOutput
  split <;> rfl

theorem State.failDec_withIbuf (s : State) (m : Memory) (K : Nat) (c : ErrCode) :
    (s.withIbuf m).failDec K c = (s.failDec K c).withIbuf m :=
  congrArg (fun t => t.raise c) (s.scrambleOutput_withIbuf m (s.decRegion K))

/-- With another IBUF that holds the same stream, a DEC command does the same outside IBUF (rules R153, R178). -/
theorem decCommand_withIbuf {W : Width} {s : State} {m : Memory} (h : SameWords .ibuf s.encLen.toNat s (s.withIbuf m)) :
    decCommand W (s.withIbuf m) = (decCommand W s).withIbuf m := by
  have hr : s.decResult W = (s.withIbuf m).decResult W := State.decResult_congr rfl ⟨rfl, rfl, rfl, h⟩
  cases hs : s.decResult W with
  | error c => rw [decCommand_of_error hs, decCommand_of_error (hr.symm.trans hs), State.failDec_withIbuf]
  | ok xs =>
    rw [decCommand_of_ok hs, decCommand_of_ok (hr.symm.trans hs)]
    rfl

end Sys2Proof.Machine
end

section
/-! SUPPORT. The statements about the stream format (42_codec_stream_format.md), settled from the rules above. -/

namespace Sys2Proof.Proofs

open Sys2Proof.Machine

/-! ### The round trip and what the decoder reads -/

/-- Settles O55: the header, the blocks and the tail section are each read back, and the deltas sum to the array. -/
theorem decodeInvertsEncodeStream : Obligations.DecodeInvertsEncodeStream := by
  intro W p xs hlen hreq hxs
  rcases eq_or_ne xs [] with rfl | hne
  · rfl
  · exact decodeStream_encodeStream hne hlen hreq hxs

/-- Settles O41: what is decoded depends on the words of the stream alone, and IBUF is in the frame of the command. -/
theorem decoderReadsOnlyTheStream : Obligations.DecoderReadsOnlyTheStream := by
  intro W s s' t t' hs' hw ht ht'
  obtain rfl := (exec_next_iff _ s t).1 ht
  obtain rfl := (exec_next_iff _ s' t').1 ht'
  rw [commandState_decInstr, commandState_decInstr]
  generalize s'.ibuf = m at hs' ⊢
  subst hs'
  exact decCommand_withIbuf hw

/-! ### Packing and deltas -/

/-- Settles O43: both the packed words and the unpacked values are described by their bits. -/
theorem packbitsLayout : Obligations.PackbitsLayout := by
  intro vs us c w _ hvs
  refine ⟨packbits_length vs w, fun t _ => ?_, unpackbits_packbits hvs, unpackbits_length us c w, fun i hi => ?_,
    fun i j hi hj => testBit_unpackbits us hi hj⟩
  · rw [← testBit_ofWords, ofWords_packbits, testBit_joinBits]
  · rw [unpackbits_getD us hi]
    exact Nat.mod_lt _ (Nat.two_pow_pos w)

/-- Settles O44: each delta undoes the addition that the inverse stage makes. -/
theorem deltaStageAndItsInverse : Obligations.DeltaStageAndItsInverse := by
  intro W xs hxs
  refine ⟨deltas_length _ _ _, fun i hi => ?_, undelta_deltas hxs⟩
  rw [deltas_getD hi, subMod_cast]
  cases i with
  | zero => rfl
  | succ i => rfl

/-! ### Blocks -/

/-- Settles O45: the search keeps the earliest of the least deltas. -/
theorem referenceIsTheSignedMinimum : Obligations.ReferenceIsTheSignedMinimum := by
  intro W ds hne hds
  obtain ⟨j, ⟨hj, hle, hst⟩, href⟩ := reference_isFirstLeast (widthBits W) hne
  refine ⟨⟨j, hj, href, hle, hst, ?_⟩, offsets_addMod_reference hds⟩
  rw [List.getD_eq_getElem _ _ ((offsets_length _ ds).symm ▸ hj)]
  simp only [offsets, List.getElem_map, href, List.getD_eq_getElem _ _ hj, subMod_self]

/-- Settles O46: `mb` is the least width of all values, and the values are 0 exactly when the deltas are equal. -/
theorem maxWidthOfABlock : Obligations.MaxWidthOfABlock := by
  rintro W ds mb hne hds rfl
  exact ⟨maxWidth_le_iff.1 le_rfl, fun k => maxWidth_le_iff.2, maxWidth_offsets_le _ ds, maxWidth_offsets_eq_zero_iff hne hds⟩

/-- Settles O47: the search downwards replaces its candidate by a strictly cheaper one only. -/
theorem packedWidthIsTheLargestCheapest : Obligations.PackedWidthIsTheLargestCheapest := by
  intro vs mb
  obtain ⟨hle, hbest⟩ := packedWidth_isLargestCheapest vs mb
  refine ⟨rfl, hle, fun c hc => hbest c (Nat.zero_le c) hc, ?_⟩
  rintro rfl
  exact cost_maxWidth vs

/-- Settles O48: the reference's own value is 0 and so no exception, and no value reaches past `mb`. -/
theorem exceptionsOfABlock : Obligations.ExceptionsOfABlock := by
  rintro W isPatched ds mb b hlen - rfl rfl
  have hne : ds ≠ [] := List.ne_nil_of_length_pos (by omega)
  refine ⟨exceptions_length _ _ _, hlen ▸ excCount_offsets_lt _ _ hne, lt_maxWidth_of_excCount_pos, ?_⟩
  rintro rfl
  exact excCount_unpatched _

/-- Settles O49: a block costs what the encoder's choice costs, at most `4·mb`, which is 0 for equal deltas. -/
theorem blockLengthFormula : Obligations.BlockLengthFormula := by
  rintro W isPatched ds mb b e hlen hds rfl rfl rfl
  have hne : ds ≠ [] := List.ne_nil_of_length_pos (by omega)
  have hformula := encodeBlock_length W isPatched hlen
  have hleast : 1 + widthBits W / 32 ≤ (encodeBlock W isPatched ds).length := hformula ▸ Nat.le_add_right _ _
  refine ⟨hformula.trans (Nat.add_assoc _ _ _).symm, hleast, encodeBlock_length_le W isPatched hlen, fun heq => ?_⟩
  have hmost := encodeBlock_length_le_maxWidth W isPatched hlen
  rw [(maxWidth_offsets_eq_zero_iff hne hds).2 heq] at hmost
  exact le_antisymm hmost hleast

/-! ### The variable-byte code -/

/-- Settles O50: by induction on the bytes of the code, each step taking off a group of 7 bits. -/
theorem varbyteCodeIsShortest : Obligations.VarbyteCodeIsShortest := by
  intro W d hd
  have hd' := hd.trans_le (two_pow_widthBits_le W)
  exact ⟨varbyteCode_length hd', varbyte_length_le W d, fun k hk => varbyteCode_getD hd' hk⟩

/-- Settles O51: by induction on the bytes that announce another one, down to the last one allowed. -/
theorem overlongVarbyteIsRejected : Obligations.OverlongVarbyteIsRejected := by
  intro W cur ws bs rest z hbytes hlen hbs hz
  have hmax : vbMax W = bs.length + 1 := by rw [hlen]; cases W <;> rfl
  have hread : rdVarbyte W (vbMax W) 0 0 cur ws = .error .varbyte := by
    rw [hmax]
    exact rdVarbyte_overlong hbytes hbs (by rwa [Nat.zero_add, hlen])
  exact ⟨hread, fun r => decodeTail_succ_of_error hread⟩

/-! ### The decoder's first tests -/

/-- Settles O53: the tests of the header as bits of its word. -/
theorem headerIsTestedFirst : Obligations.HeaderIsTestedFirst := by
  intro W p n h ws hn
  refine ⟨?_, fun hbad => ?_, fun ⟨htop, hsel, hw64⟩ hcount => ?_⟩
  · rw [decodeStream, if_neg hn.ne']
    rfl
  · refine decodeStream_of_header_error ws hn ?_
    rw [checkHeader_eq, if_pos hbad]
  · refine decodeStream_of_header_error ws hn ?_
    rw [checkHeader_eq, if_neg, if_pos hcount]
    rintro (h | h | h)
    · exact Bool.false_ne_true (htop.symm.trans h)
    · exact h hsel
    · exact h hw64

/-- Settles O54: the tests of the descriptor as fields of its word. -/
theorem invalidDescriptorIsRejected : Obligations.InvalidDescriptorIsRejected := by
  rintro W isPatched D ws b mb e rfl rfl rfl h
  refine decodeBlock_of_descriptor_error ws ((descriptorOk_eq_false_iff W isPatched D.toNat).2 ?_)
  rw [slice_bit_ne_zero, slice_bit_ne_zero, slice_ne_zero, slice_toNat, slice_toNat, slice_toNat]
  exact h

/-! ### Lengths -/

/-- Settles O56: the sum of the bounds of the blocks and of the tail section. -/
theorem streamLengthUpperBound : Obligations.StreamLengthUpperBound :=
  fun W p _ hpos _ => ⟨encodeStream_length_le W p (List.length_pos_iff.1 hpos), streamBound_lt W p⟩

/-- Settles O57: the header, and a block or a word of the tail section. -/
theorem streamLengthLowerBound : Obligations.StreamLengthLowerBound :=
  fun W p _ hpos hreq => two_le_encodeStream_length W p (List.length_pos_iff.1 hpos) hreq

/-! ### The empty array and the presets -/

/-- Settles O52: the encoder and the decoder test for no element first. -/
theorem emptyArrayIsTheEmptyStream : Obligations.EmptyArrayIsTheEmptyStream :=
  fun _ _ _ _ => ⟨rfl, rfl, rfl⟩

/-- Settles O58: for each of the four values of the selector. -/
theorem presetsAreAsTabled : Obligations.PresetsAreAsTabled := by
  unfold Obligations.PresetsAreAsTabled
  decide

end Sys2Proof.Proofs
end

section
/-! SUPPORT. ENC32, ENC64, DEC32 and DEC64 (rules R170 to R186): the `STATUS` of each result, the words a result leaves in OBUF, when a
stream is empty, and that decoding a copied stream gives the encoded elements back. -/

namespace Sys2Proof.Machine

/-! ### The checks and `STATUS` -/

/-- The block requirement as a value of `CODEC_SEL` (rules R131, R170). -/
theorem State.req_eq (s : State) : s.req = if s.codecSel = 2 then 128 else 1 := by
  obtain ⟨-, -, -, hreq, -⟩ := Proofs.presetsAreAsTabled s.codecSel
  exact hreq

/-- The `STATUS` that a codec procedure leaves for its result (rules R86, R200). -/
def resultStatus {α : Type} : Except ErrCode α → Word
  | .error c => statusWord c
  | .ok _ => 0

theorem exists_error_of_resultStatus_ne_zero {α : Type} {r : Except ErrCode α} (h : resultStatus r ≠ 0) :
    ∃ c, r = .error c ∧ resultStatus r = statusWord c := by
  cases r with
  | error c => exact ⟨c, rfl, rfl⟩
  | ok a => exact absurd rfl h

/-- The first failing check of `ENC(W)` decides (rules R172, R208). -/
theorem resultStatus_encResult (W : Width) (s : State) :
    resultStatus (s.encResult W) =
      if 2 ^ 28 - 1 < s.nElems.toNat ∨ s.params.ibufWords < widthWords W * s.nElems.toNat then 0x103
      else if s.nElems.toNat % (if s.codecSel = 2 then 128 else 1) ≠ 0 then 0x104
      else if s.encCap.toNat < (s.encStream W).length ∨ s.params.obufWords < (s.encStream W).length then 0x105
      else 0 := by
  rw [← State.req_eq, State.encResult, apply_ite resultStatus, apply_ite resultStatus, apply_ite resultStatus]
  rfl

/-- The first failing check of `DEC(W)`, or else the stream, decides (rules R178, R208). -/
theorem resultStatus_decResult (W : Width) (s : State) :
    resultStatus (s.decResult W) =
      if 2 ^ 28 - 1 < s.nElems.toNat ∨ s.params.ibufWords < s.encLen.toNat then 0x103
      else if s.nElems.toNat % (if s.codecSel = 2 then 128 else 1) ≠ 0 then 0x104
      else if s.params.obufWords < widthWords W * s.nElems.toNat then 0x105
      else resultStatus (s.decStream W) := by
  rw [← State.req_eq, State.decResult, apply_ite resultStatus, apply_ite resultStatus, apply_ite resultStatus]
  rfl

theorem encCommand_status_eq (W : Width) (s : State) : (encCommand W s).status = resultStatus (s.encResult W) := by
  cases h : s.encResult W with
  | error c => rw [encCommand_of_error h]; rfl
  | ok S => rw [encCommand_of_ok h]; rfl

/-- A failing ENC command: what it leaves outside its output region (rules R172, R204). -/
theorem State.failEnc_frame (s : State) (c : ErrCode) :
    (∀ k, s.encRegion ≤ k → (s.failEnc c).word .obuf k = s.word .obuf k) ∧
    s.failEnc c = { s with status := statusWord c, encLen := 0, obuf := (s.failEnc c).obuf, freeNext := (s.failEnc c).freeNext } := by
  refine ⟨fun k hk => by rw [State.word_failEnc, if_neg (Nat.not_lt.2 hk)], ?_⟩
  rw [State.failEnc_eq]
  rfl

/-- A failing DEC command: what it leaves outside its output region (rules R178, R204). -/
theorem State.failDec_frame (s : State) (K : Nat) (c : ErrCode) :
    (∀ k, s.decRegion K ≤ k → (s.failDec K c).word .obuf k = s.word .obuf k) ∧
    s.failDec K c = { s with status := statusWord c, obuf := (s.failDec K c).obuf, freeNext := (s.failDec K c).freeNext } := by
  refine ⟨fun k hk => by rw [State.word_failDec, if_neg (Nat.not_lt.2 hk)], ?_⟩
  rw [State.failDec_eq]
  rfl

/-! ### Output words and elements -/

theorem State.word_writeOutput_of_lt (s : State) {ws : List Word} {k : Nat} (hk : k < ws.length) :
    (s.writeOutput ws).word .obuf k = ws.getD k 0 := by
  rw [State.word_writeOutput, dif_pos hk, List.getD_eq_getElem _ _ hk]

theorem State.word_writeOutput_of_le (s : State) {ws : List Word} {k : Nat} (hk : ws.length ≤ k) :
    (s.writeOutput ws).word .obuf k = s.word .obuf k := by
  rw [State.word_writeOutput, dif_neg (Nat.not_lt.2 hk)]

/-- Words that stand in a buffer from an index on are read as their number (rule R11). -/
theorem State.memRead_eq_ofWords {s : State} {sp : Space} {i n : Nat} {ws : List Word} (hlen : ws.length = n)
    (h : ∀ j, j < n → s.word sp (i + j) = ws.getD j 0) : s.memRead sp i n = ofWords ws := by
  subst hlen
  induction ws generalizing i with
  | nil => rfl
  | cons w ws ih =>
    have hhead : s.word sp i = w := h 0 (Nat.succ_pos _)
    have htail : s.memRead sp (i + 1) ws.length = ofWords ws := ih fun j hj => by
      rw [Nat.add_right_comm, Nat.add_assoc]
      exact h (j + 1) (Nat.succ_lt_succ hj)
    rw [List.length_cons, State.memRead, hhead, htail, ofWords]

/-- Element `k` of an array stands in the words from `K·k` on (rule R51). -/
theorem flatMap_elementWords_getD {W : Width} {xs : List Nat} {k j : Nat} (hk : k < xs.length) (hj : j < widthWords W) :
    (xs.flatMap (elementWords W)).getD (widthWords W * k + j) 0 = (elementWords W (xs.getD k 0)).getD j 0 := by
  induction xs generalizing k with
  | nil => exact absurd hk (Nat.not_lt_zero k)
  | cons x xs ih =>
    rw [List.flatMap_cons]
    cases k with
    | zero =>
      rw [Nat.mul_zero, Nat.zero_add, List.getD_append _ _ _ _ (by rwa [elementWords_length]), List.getD_cons_zero]
    | succ k =>
      have hskip : widthWords W * (k + 1) + j = (elementWords W x).length + (widthWords W * k + j) := by
        rw [elementWords_length]; ring
      rw [hskip, List.getD_append_right _ _ _ _ (Nat.le_add_right _ _), Nat.add_sub_cancel_left,
        ih (Nat.lt_of_succ_lt_succ hk), List.getD_cons_succ]

theorem widthBits_eq (W : Width) : widthBits W = 32 * widthWords W := by cases W <;> rfl

/-- An array written to OBUF has its elements there (rules R51, R61). -/
theorem State.element_writeOutput (s : State) {W : Width} {xs : List Nat} (hxs : ∀ x ∈ xs, x < 2 ^ widthBits W) {k : Nat}
    (hk : k < xs.length) : (s.writeOutput (xs.flatMap (elementWords W))).element W .obuf k = xs.getD k 0 := by
  have hlen := flatMap_elementWords_length W xs
  have hx : xs.getD k 0 < 2 ^ widthBits W := by
    rw [List.getD_eq_getElem _ _ hk]
    exact hxs _ (List.getElem_mem hk)
  rw [← State.memRead_element, State.memRead_eq_ofWords (elementWords_length W (xs.getD k 0)), elementWords, ofWords_wordsOf,
    ← widthBits_eq, Nat.mod_eq_of_lt hx]
  intro j hj
  have hend : widthWords W * k + j < widthWords W * xs.length :=
    calc widthWords W * k + j < widthWords W * k + widthWords W := Nat.add_lt_add_left hj _
      _ = widthWords W * (k + 1) := (Nat.mul_succ _ _).symm
      _ ≤ widthWords W * xs.length := Nat.mul_le_mul_left _ hk
  rw [State.word_writeOutput_of_lt _ (hlen ▸ hend), flatMap_elementWords_getD hk hj]

theorem State.elements_getD (s : State) (W : Width) (sp : Space) {n k : Nat} (hk : k < n) :
    (s.elements W sp n).getD k 0 = s.element W sp k := by
  rw [State.elements_eq, List.getD_eq_getElem _ _ (by simpa using hk), List.getElem_map, List.getElem_range]

/-! ### The stream of ENC32 and ENC64 -/

theorem encodeStream_eq_nil_iff (W : Width) (p : Preset) (xs : List Nat) : encodeStream W p xs = [] ↔ xs = [] := by
  constructor
  · intro h
    by_contra hne
    rw [encodeStream_eq W p hne] at h
    cases h
  · rintro rfl
    rfl

theorem word_toNat_eq_zero_iff {w : Word} : w.toNat = 0 ↔ w = 0 := BitVec.toNat_inj (y := 0)

theorem State.encStream_eq_nil_iff (s : State) (W : Width) : s.encStream W = [] ↔ s.nElems = 0 := by
  rw [State.encStream, encodeStream_eq_nil_iff, ← List.length_eq_zero_iff, State.elements_length, word_toNat_eq_zero_iff]

/-- The header of rule R134 with `CODEC_SEL` in it. -/
theorem headerWord_presetOf_toNat (W : Width) (sel : BitVec 2) {n : Nat} (hn : n ≤ 2 ^ 28 - 1) :
    (headerWord W (presetOf sel) n).toNat = n + 2 ^ 28 * sel.toNat + 2 ^ 30 * (if W = .w64 then 1 else 0) := by
  obtain ⟨-, -, -, -, hsel⟩ := Proofs.presetsAreAsTabled sel
  have hw64 : w64Bit W = if W = .w64 then 1 else 0 := by cases W <;> rfl
  have hbit : (if W = .w64 then 1 else 0) < 2 := by split <;> decide
  rw [headerWord, hsel, hw64, BitVec.toNat_ofNat, Nat.mod_eq_of_lt (by omega)]

/-- A successful `ENC(W)` computed the stream and passed the checks of rule R172. -/
theorem encResult_eq_ok_iff {W : Width} {s : State} {S : List Word} :
    s.encResult W = .ok S ↔ S = s.encStream W ∧ s.encResult W = .ok (s.encStream W) := by
  rcases encCommand_cases W s with ⟨c, h, -⟩ | ⟨h, -⟩ <;> simp [h, eq_comm]

/-- The empty array passes every check (rule R172). -/
theorem encResult_of_nElems_eq_zero (W : Width) {s : State} (h : s.nElems = 0) : s.encResult W = .ok [] := by
  have hnil := (s.encStream_eq_nil_iff W).2 h
  rw [← hnil]
  exact (encResult_ok_iff W s).2 (by simp [h, hnil])

/-- `ENC_LEN` is below `2^32`, as `ENC_CAP` is, and so holds the stream's length (rule R172). -/
theorem encCommand_encLen_of_ok {W : Width} {s : State} {S : List Word} (h : s.encResult W = .ok S) :
    (encCommand W s).encLen.toNat = S.length := by
  obtain ⟨rfl, hok⟩ := encResult_eq_ok_iff.1 h
  obtain ⟨-, -, -, hcap, -⟩ := (encResult_ok_iff W s).1 hok
  rw [encCommand_of_ok h]
  exact Nat.mod_eq_of_lt (hcap.trans_lt s.encCap.isLt)

/-! ### The elements of DEC32 and DEC64 -/

/-- What a successful `DEC(W)` decoded: `N_ELEMS` elements below `2^W`. -/
theorem decResult_shape {W : Width} {s : State} {xs : List Nat} (h : s.decResult W = .ok xs) :
    xs.length = s.nElems.toNat ∧ ∀ x ∈ xs, x < 2 ^ widthBits W := by
  obtain ⟨-, -, hreq, -, hdec⟩ := (decResult_ok_iff W s xs).1 h
  exact decodeStream_shape hdec hreq

/-- A successful `DEC(W)` leaves the elements in OBUF (rule R178). -/
theorem element_decCommand_of_ok {W : Width} {s : State} {xs : List Nat} (h : s.decResult W = .ok xs) {k : Nat}
    (hk : k < s.nElems.toNat) : (decCommand W s).element W .obuf k = xs.getD k 0 := by
  obtain ⟨hlen, hlt⟩ := decResult_shape h
  rw [decCommand_of_ok h]
  exact s.element_writeOutput hlt (hlen ▸ hk)

/-! ### The round trip -/

/-- The bound of rule R166 leaves room for the elements themselves: a block's bound exceeds `128·K` words, a tail element's `K`. -/
theorem widthWords_mul_le_streamBound (W : Width) {p : Preset} {n : Nat} (h : n % blockReq p = 0) :
    widthWords W * n ≤ streamBound W p n := by
  have hparts := blockCount_tailCount h
  have htail := le_mul_ceilDiv (tailCount p n * vbMax W) (b := 4) (by decide)
  cases W <;> simp only [streamBound, widthWords, widthBits, vbMax] at htail ⊢ <;> omega

/-- A unit that holds in IBUF the stream of a successful `ENC(W)`, and its length, decodes the encoded elements (rule R185). -/
theorem decResult_of_encResult {W : Width} {s u : State} {S : List Word} (h : s.encResult W = .ok S)
    (hobuf : streamBound W (presetOf s.codecSel) s.nElems.toNat ≤ u.params.obufWords) (hibuf : u.encLen.toNat ≤ u.params.ibufWords)
    (hn : u.nElems = s.nElems) (hsel : u.codecSel = s.codecSel) (hlen : u.encLen.toNat = S.length)
    (hw : ∀ k, k < S.length → u.word .ibuf k = S.getD k 0) :
    u.decResult W = .ok (s.elements W .ibuf s.nElems.toNat) := by
  obtain ⟨rfl, hok⟩ := encResult_eq_ok_iff.1 h
  obtain ⟨hmax, -, hreq, -⟩ := (encResult_ok_iff W s).1 hok
  have hwords : u.words .ibuf u.encLen.toNat = s.encStream W :=
    State.words_of_getD hlen.symm fun k hk => (hw k (hlen ▸ hk)).symm
  have hdec : u.decStream W = .ok (s.elements W .ibuf s.nElems.toNat) := by
    have hinv := Proofs.decodeInvertsEncodeStream W (presetOf s.codecSel) (s.elements W .ibuf s.nElems.toNat)
    rw [State.elements_length] at hinv
    rw [State.decStream, hwords, hn, hsel]
    refine hinv hmax hreq fun x hx => ?_
    rw [State.elements_eq] at hx
    obtain ⟨i, -, rfl⟩ := List.mem_map.1 hx
    exact s.element_lt W .ibuf i
  refine (decResult_ok_iff W u _).2 ⟨hn ▸ hmax, hibuf, ?_, ?_, hdec⟩
  · rw [State.req, hn, hsel]
    exact hreq
  · rw [hn]
    exact (widthWords_mul_le_streamBound W hreq).trans hobuf

end Sys2Proof.Machine
end

section
/-! SUPPORT. The statements about the codec commands (43_codec_commands.md), settled from the rules above. -/

namespace Sys2Proof.Proofs

open Sys2Proof.Machine

/-- Settles O38: the copied stream decodes to the elements, and they fit OBUF, since the bound on their stream does. -/
theorem unitRoundTrip : Obligations.UnitRoundTrip := by
  intro W s t u hbound hcap ht hstatus hibuf hp hn hlen hsel hw
  obtain rfl := (exec_next_iff _ s t).1 ht
  simp only [commandState_encInstr] at hstatus hibuf hp hn hlen hsel hw
  cases h : s.encResult W with
  | error c =>
    rw [encCommand_status_eq, h] at hstatus
    exact absurd ((statusWord_eq_zero c).1 hstatus) (encResult_error_ne_ok h)
  | ok S =>
    have hlenS := encCommand_encLen_of_ok h
    rw [← hlen] at hibuf hw hlenS
    rw [← hp] at hibuf
    rw [encCommand_of_ok h] at hp hn hsel hw
    have hdec : u.decResult W = .ok (s.elements W .ibuf s.nElems.toNat) := by
      refine decResult_of_encResult h ?_ hibuf hn hsel hlenS fun k hk => ?_
      · rw [hp]
        exact hbound.trans hcap
      · rw [hw k (hlenS ▸ hk)]
        exact s.word_writeOutput_of_lt hk
    refine ⟨decCommand W u, ?_, by rw [decCommand_of_ok hdec]; rfl, fun k hk => ?_⟩
    · rw [exec_eq, commandState_decInstr]
    · have hk' : k < u.nElems.toNat := hn ▸ hk
      rw [element_decCommand_of_ok hdec hk', State.elements_getD s W .ibuf hk]

/-- Settles O33: the checks pass, so that the command ends in its success branch. -/
theorem encodeWritesTheStream : Obligations.EncodeWritesTheStream := by
  rintro W s xs S hmax hibuf hreq hlen hxs rfl hcap hobuf
  have hstream : s.encStream W = encodeStream W (presetOf s.codecSel) xs := by
    rw [State.encStream, State.elements_of_getD hlen hxs]
  have h : s.encResult W = .ok (s.encStream W) :=
    (encResult_ok_iff W s).2 ⟨hmax, hibuf, s.req_eq ▸ hreq, hstream ▸ hcap, hstream ▸ hobuf⟩
  rw [← hstream]
  refine ⟨encCommand W s, ?_, encCommand_encLen_of_ok h, fun hpos => ?_, ?_⟩
  · rw [exec_eq, commandState_encInstr]
  · rw [hstream, encodeStream_eq W _ (List.length_pos_iff.1 (hlen ▸ hpos)), List.getD_cons_zero, hlen]
    exact headerWord_presetOf_toNat W s.codecSel hmax
  · rw [encCommand_of_ok h]
    exact ⟨fun k hk => s.word_writeOutput_of_lt hk, fun k hk => s.word_writeOutput_of_le hk, rfl⟩

/-- Settles O34: a code other than 0 is that of an error, and the command ends in its failure branch. -/
theorem encodeFailsByTheFirstCheck : Obligations.EncodeFailsByTheFirstCheck := by
  intro W s xs c hlen hxs hc hne
  have hstream : encodeStream W (presetOf s.codecSel) xs = s.encStream W := by
    rw [State.encStream, State.elements_of_getD hlen hxs]
  rw [hstream, ← resultStatus_encResult] at hc
  obtain ⟨e, he, hst⟩ := exists_error_of_resultStatus_ne_zero (hc ▸ hne)
  rw [hc, hst]
  refine ⟨s.failEnc e, ?_, s.failEnc_frame e⟩
  rw [exec_eq, commandState_encInstr, encCommand_of_error he]

/-- Settles O35: the checks pass and the stream decodes, so that the command ends in its success branch. -/
theorem decodeWritesTheElements : Obligations.DecodeWritesTheElements := by
  intro W s ws xs hmax hibuf hreq hobuf hlen hws hdec
  have hstream : s.decStream W = .ok xs := by rw [State.decStream, State.words_of_getD hlen hws, hdec]
  have h : s.decResult W = .ok xs := (decResult_ok_iff W s xs).2 ⟨hmax, hibuf, s.req_eq ▸ hreq, hobuf, hstream⟩
  obtain ⟨hxs, -⟩ := decResult_shape h
  refine ⟨decCommand W s, ?_, hxs, fun k hk => element_decCommand_of_ok h hk, ?_⟩
  · rw [exec_eq, commandState_decInstr]
  · rw [decCommand_of_ok h]
    refine ⟨fun k hk => s.word_writeOutput_of_le ?_, rfl⟩
    rwa [flatMap_elementWords_length, hxs]

/-- Settles O36: a code other than 0 is that of an error, and the command ends in its failure branch. -/
theorem decodeFailsByTheFirstCheck : Obligations.DecodeFailsByTheFirstCheck := by
  intro W s ws c hlen hws hc hne
  have hstream : decodeStream W (presetOf s.codecSel) s.nElems.toNat ws = s.decStream W := by
    rw [State.decStream, State.words_of_getD hlen hws]
  have hstatus : c = resultStatus (s.decResult W) := by
    rw [hc, hstream, resultStatus_decResult]
    cases s.decStream W <;> rfl
  obtain ⟨e, he, hst⟩ := exists_error_of_resultStatus_ne_zero (hstatus ▸ hne)
  rw [hstatus, hst]
  refine ⟨s.failDec (widthWords W) e, ?_, s.failDec_frame (widthWords W) e⟩
  rw [exec_eq, commandState_decInstr, decCommand_of_error he]

/-- Settles O37: only the empty array has the empty stream, and it passes every check. -/
theorem zeroLengthMeansEmptyOrFailed : Obligations.ZeroLengthMeansEmptyOrFailed := by
  intro W s
  refine ⟨encCommand W s, by rw [exec_eq, commandState_encInstr], ?_⟩
  cases h : s.encResult W with
  | error c =>
    have hstatus : (encCommand W s).status ≠ 0 := by
      rw [encCommand_status_eq, h]
      exact mt (statusWord_eq_zero c).1 (encResult_error_ne_ok h)
    have hencLen : (encCommand W s).encLen = 0 := by rw [encCommand_of_error h]; rfl
    have hn : s.nElems ≠ 0 := fun h0 => by cases h.symm.trans (encResult_of_nElems_eq_zero W h0)
    exact ⟨iff_of_false (fun h0 => hstatus h0.1) hn, fun _ => iff_of_true hencLen hstatus⟩
  | ok S =>
    obtain ⟨rfl, -⟩ := encResult_eq_ok_iff.1 h
    have hstatus : (encCommand W s).status = 0 := by rw [encCommand_status_eq, h]; rfl
    have hencLen : (encCommand W s).encLen = 0 ↔ s.nElems = 0 := by
      rw [← word_toNat_eq_zero_iff, encCommand_encLen_of_ok h, List.length_eq_zero_iff, State.encStream_eq_nil_iff]
    exact ⟨(and_iff_right hstatus).trans hencLen, fun hn => iff_of_false (mt hencLen.1 hn) (not_not_intro hstatus)⟩

end Sys2Proof.Proofs
end

section
/-! SUPPORT. Reset as a transaction (70_reset_and_hazards.md): what the host reads of the unit afterwards. -/

namespace Sys2Proof.Machine

/-- A read by register number depends on the register values alone (rule R24). -/
theorem State.regRead_congr {s u : State} (h : ∀ r, s.regValue r = u.regValue r) (k : Nat) : s.regRead k = u.regRead k := by
  simp only [State.regRead, h]

/-- `Reset` gives each register the value of rule R39 (rule R230). -/
theorem State.resetUnit_regValue (s : State) (r : Reg) : s.resetUnit.regValue r = State.reset.regValue r := by
  cases r <;> rfl

@[simp] theorem State.withResponse_regValue (s : State) (a : Response) (r : Reg) :
    (s.withResponse a).regValue r = s.regValue r := by
  cases r <;> rfl

/-- `Reset` leaves every buffer word unspecified, by this very event (rules R39, R230). -/
theorem State.resetUnit_word (s : State) (sp : Space) (i : Nat) : s.resetUnit.word sp i = Config.freeWord s.freeNext sp i := by
  cases sp <;> exact Memory.read_unspecified s.freeNext _ i

@[simp] theorem State.withResponse_word (s : State) (a : Response) (sp : Space) (i : Nat) :
    (s.withResponse a).word sp i = s.word sp i := by
  cases sp <;> rfl

theorem step_reset {s : State} {ts : List Txn} (hp : s.program = .reset :: ts) :
    step s = .next ((s.withProgram ts).resetUnit.withResponse .done) := step_transact hp

end Sys2Proof.Machine
end

section
/-! SUPPORT. The statement about reset (70_reset_and_hazards.md), settled from the rules above. -/

namespace Sys2Proof.Proofs

open Sys2Proof.Machine

/-- Settles O2: the step resets the unit, whose registers then read as in the state of rule R39 and whose words are those of this
reset's event. -/
theorem resetTransactionResetsTheUnit : Obligations.ResetTransactionResetsTheUnit := by
  intro s ts hp
  refine ⟨(s.withProgram ts).resetUnit.withResponse .done, step_reset hp, fun k hk => ?_, fun sp i => ?_, rfl⟩
  · obtain ⟨hregs, -⟩ := resetStateIsAsTabled
    rw [← hregs k hk]
    exact State.regRead_congr (fun r => by rw [State.withResponse_regValue, State.resetUnit_regValue]) k
  · rw [State.withResponse_word, State.resetUnit_word, State.withProgram_freeNext]

end Sys2Proof.Proofs
end
